-- ==== Sys2Proof/Word.lean ====
section
/-! DEFINITION. The two word types of the core (spec/00_scope.md R7, R9): a byte, and a 16-bit number. -/

namespace Sys2Proof

/-- A byte: a register, an immediate, a memory cell, a stack slot (R7, R9). -/
abbrev Byte := BitVec 8

/-- A 16-bit number: the program counter (R26) and a data address (R60). -/
abbrev Word16 := BitVec 16

end Sys2Proof
end

