-- ==== Sys2Proof/Config.lean ====
section
/-! DEFINITION. What is fixed for the machine: the fixed parameters of spec/00_scope.md R7 and the defaults of the two
parameters that R8 leaves OPEN. Nothing here has a free value: every rule of the spec either states its value or makes it
an argument of the model. -/

namespace Sys2Proof

/-- `RESERVED_NOP_TAGS` (R8, R114): a finite partial map from a tag byte to an arity, as a list of entries. It is an
argument of the decoder; `ReservedTags.wf` (WellFormed.lean) is R114's condition on it. -/
abbrev ReservedTags := List (Byte × Nat)

/-- Data memory size in bytes (R7, R60). -/
def Config.memSize : Nat := 65536
/-- Number of stack slots (R7, R34). -/
def Config.stackSize : Nat := 255
/-- `MAX_PROGRAM_LEN` (R8, R40, D3). -/
def Config.maxProgramLen : Nat := 65535
/-- First byte of the framebuffer (R7, R66). -/
def Config.framebufferBase : Word16 := 0x8000
/-- Framebuffer length in bytes, 40 * 32 * 3 (R7, R66). -/
def Config.framebufferLen : Nat := 3840
/-- The exit code of running off the end (R7, R411). -/
def Config.implicitHaltCode : Byte := 255

/-- DESIGN CHOICE, unsafe (log entry 1): the value of `zf_init` that `State.reset` uses. The spec leaves it OPEN (R8, D7)
and recommends `false` for a simulator. Claims about a fresh instance quantify over the argument of `State.fresh`. -/
def Config.zfInit : Bool := false

/-- The default and recommended value of `RESERVED_NOP_TAGS`, the empty map (R8, R114; log entry 3). -/
def Config.reservedNopTags : ReservedTags := []

end Sys2Proof
end

