-- ==== Sys2Proof/Syntax.lean ====
section
/-! DEFINITION. Syntax: the ten registers (spec/10_state.md R20), the decoded instruction (spec/30_encoding.md R109), the
17 opcodes as names (R104), and the decoder's refusals (R121). -/

namespace Sys2Proof

/-- The ten registers by their assembler names (R20). D9: a register is its name; no storage index exists. -/
inductive Reg where
  | ax | bx | cx | dx
  /-- ReturnValue: the exit code (R22). -/
  | ret
  | f1 | f2 | f3 | f4
  | fret
  deriving DecidableEq, Repr

/-- The 17 defined opcodes (R104), by text mnemonic. -/
inductive Opcode where
  | add | sub | setret | put | mov | putmem | push | pop | exit | nop | cmp | jump | jz | call | ret | render | wait
  deriving DecidableEq, Repr

/-- The decoded instruction (R109), one constructor per tag, and `reserved` for the tags of the parameter
`RESERVED_NOP_TAGS` (R114). No constructor holds a label (R100, I6). -/
inductive Instr where
  /-- ADD (R202). -/
  | add (d s : Reg)
  /-- SUB (R203). -/
  | sub (d s : Reg)
  /-- SETRET (R220). -/
  | setret (i : Byte)
  /-- PUT (R221). -/
  | put (d : Reg) (i : Byte)
  /-- MOV (R222). -/
  | mov (d s : Reg)
  /-- PUTMEM (R300): address high byte, address low byte, value. -/
  | putmem (h l v : Byte)
  /-- PUSH (R260). -/
  | push (r : Reg)
  /-- POP (R261). -/
  | pop (r : Reg)
  /-- EXIT (R320). -/
  | exit
  /-- NOP (R321). -/
  | nop
  /-- CMP (R240). -/
  | cmp (a b : Reg)
  /-- JUMP (R280): target high byte, target low byte. -/
  | jump (h l : Byte)
  /-- JZ, binary name JumpIfZero (R281). -/
  | jz (h l : Byte)
  /-- CALL (R282). -/
  | call (h l : Byte)
  /-- RETURN (R283). -/
  | ret
  /-- RENDER (R301). -/
  | render
  /-- WAIT (R302): whole seconds. -/
  | wait (i : Byte)
  /-- The reserved no-op (R114, R322): tag and operand bytes, all ignored when it runs. -/
  | reserved (tag : Byte) (ops : List Byte)
  deriving DecidableEq, Repr

/-- The refusals of decoding and loading (R121), each with the information it records. -/
inductive LoadRefusal where
  /-- A tag byte that no row and no reserved tag has (R113(a)): byte offset, tag. Raised by `decodeOne`; safe. -/
  | illegalTag (offset : Nat) (tag : Byte)
  /-- A byte in a register position that spells no register (R105): byte offset, byte. Raised by `decodeOne`; safe. -/
  | illegalRegister (offset : Nat) (byte : Byte)
  /-- An encoding cut off by the end of the image (R113(c)): offset of the cut instruction. Raised by `decodeOne`; safe. -/
  | truncated (offset : Nat)
  /-- More than 65,535 instructions (R111, R500): the count. Raised by `decodeImage` and the host's loads; safe. -/
  | programTooLong (count : Nat)
  deriving DecidableEq, Repr

end Sys2Proof
end

