-- ==== Sys2Proof/Decode.lean ====
section
/-! DEFINITION. The binary format: the decoder (spec/30_encoding.md R100 to R114, R121), total on any bytes, and after it
the encoder written from the same tables. -/

namespace Sys2Proof

/-! ### Bytes and 16-bit numbers (R9, R69, R106) -/

/-- The 16-bit value `(hi << 8) | lo` of two bytes (R9, R106). -/
def addrOf (hi lo : Byte) : Word16 := (hi.setWidth 16 <<< 8) ||| lo.setWidth 16

/-- `v >> 8`, the high byte (R9). -/
def hiByte (v : Word16) : Byte := (v >>> 8).setWidth 8

/-- `v & 0xFF`, the low byte (R9). -/
def loByte (v : Word16) : Byte := (v &&& 0xFF).setWidth 8

/-! ### The tables (R20, R104) -/

/-- The encoding byte of a register, column "encoding byte" of R20. -/
def Reg.code : Reg → Byte
  | .ax => 0x01 | .bx => 0x02 | .cx => 0x03 | .dx => 0x04
  | .ret => 0x10
  | .f1 => 0x20 | .f2 => 0x21 | .f3 => 0x22 | .f4 => 0x23
  | .fret => 0x30

/-- The registers in the order of R20. -/
def Reg.all : List Reg := [.ax, .bx, .cx, .dx, .ret, .f1, .f2, .f3, .f4, .fret]

/-- The register a byte spells in a register position, if any (R105). -/
def Reg.ofCode? (b : Byte) : Option Reg := Reg.all.find? fun r => r.code == b

/-- The tag byte of an opcode (R104). -/
def Opcode.tag : Opcode → Byte
  | .add => 0x01 | .sub => 0x03
  | .setret => 0x20 | .put => 0x21 | .mov => 0x22
  | .putmem => 0x40 | .push => 0x41 | .pop => 0x42
  | .exit => 0x80 | .nop => 0x81 | .cmp => 0x82
  | .jump => 0xA0 | .jz => 0xA1
  | .call => 0xB0 | .ret => 0xB1
  | .render => 0xF0 | .wait => 0xF1

/-- The opcodes in the order of R104. -/
def Opcode.all : List Opcode :=
  [.add, .sub, .setret, .put, .mov, .putmem, .push, .pop, .exit, .nop, .cmp, .jump, .jz, .call, .ret, .render, .wait]

/-- The opcode of a tag byte, if the table has it (R104, R110). -/
def Opcode.ofTag? (t : Byte) : Option Opcode := Opcode.all.find? fun o => o.tag == t

/-- The binary arity (R104): how many operand bytes follow the tag. -/
def Opcode.arity : Opcode → Nat
  | .exit | .nop | .ret | .render => 0
  | .setret | .push | .pop | .wait => 1
  | .add | .sub | .put | .mov | .cmp | .jump | .jz | .call => 2
  | .putmem => 3

/-- The arity `RESERVED_NOP_TAGS` gives a tag, if the tag is in its domain (R114). -/
def ReservedTags.arity? (rt : ReservedTags) (t : Byte) : Option Nat := List.lookup t rt

/-- The opcode of a decoded instruction; a reserved no-op has none. -/
def Instr.opcode? : Instr → Option Opcode
  | .add _ _ => some .add | .sub _ _ => some .sub
  | .setret _ => some .setret | .put _ _ => some .put | .mov _ _ => some .mov
  | .putmem _ _ _ => some .putmem | .push _ => some .push | .pop _ => some .pop
  | .exit => some .exit | .nop => some .nop | .cmp _ _ => some .cmp
  | .jump _ _ => some .jump | .jz _ _ => some .jz
  | .call _ _ => some .call | .ret => some .ret
  | .render => some .render | .wait _ => some .wait
  | .reserved _ _ => none

/-- The length of an encoding in bytes: one more than the arity (R100). -/
def Instr.size : Instr → Nat
  | .exit | .nop | .ret | .render => 1
  | .setret _ | .push _ | .pop _ | .wait _ => 2
  | .add _ _ | .sub _ _ | .put _ _ | .mov _ _ | .cmp _ _ | .jump _ _ | .jz _ _ | .call _ _ => 3
  | .putmem _ _ _ => 4
  | .reserved _ ops => 1 + ops.length

/-! ### The decoder (R110, R111)

`k` is the byte offset of the instruction's tag. A decoder of one format is given the bytes after the tag and answers the
instruction and the bytes left over. The length check comes before the register checks, and the registers are checked in
order (R110). -/

/-- The register spelled by the byte at offset `k`, or the refusal (R105, R110). -/
def decodeReg (k : Nat) (b : Byte) : Except LoadRefusal Reg :=
  match Reg.ofCode? b with
  | some r => .ok r
  | none => .error (.illegalRegister k b)

/-- Format F0 (R102): no operand. -/
def decodeF0 (c : Instr) (ops : List Byte) : Except LoadRefusal (Instr × List Byte) := .ok (c, ops)

/-- Format FR (R102): one register. -/
def decodeFR (c : Reg → Instr) (k : Nat) : List Byte → Except LoadRefusal (Instr × List Byte)
  | r :: rest => do
    let r ← decodeReg (k + 1) r
    return (c r, rest)
  | _ => .error (.truncated k)

/-- Format FI (R102): one immediate byte. -/
def decodeFI (c : Byte → Instr) (k : Nat) : List Byte → Except LoadRefusal (Instr × List Byte)
  | i :: rest => .ok (c i, rest)
  | _ => .error (.truncated k)

/-- Format FRR (R102): two registers. -/
def decodeFRR (c : Reg → Reg → Instr) (k : Nat) : List Byte → Except LoadRefusal (Instr × List Byte)
  | d :: s :: rest => do
    let d ← decodeReg (k + 1) d
    let s ← decodeReg (k + 2) s
    return (c d s, rest)
  | _ => .error (.truncated k)

/-- Format FRI (R102): a register and an immediate byte. -/
def decodeFRI (c : Reg → Byte → Instr) (k : Nat) : List Byte → Except LoadRefusal (Instr × List Byte)
  | d :: i :: rest => do
    let d ← decodeReg (k + 1) d
    return (c d i, rest)
  | _ => .error (.truncated k)

/-- Format FA (R102): an address, high byte then low byte. -/
def decodeFA (c : Byte → Byte → Instr) (k : Nat) : List Byte → Except LoadRefusal (Instr × List Byte)
  | h :: l :: rest => .ok (c h l, rest)
  | _ => .error (.truncated k)

/-- Format FAI (R102): an address and an immediate byte. -/
def decodeFAI (c : Byte → Byte → Byte → Instr) (k : Nat) : List Byte → Except LoadRefusal (Instr × List Byte)
  | h :: l :: v :: rest => .ok (c h l v, rest)
  | _ => .error (.truncated k)

/-- A reserved no-op of arity `n` (R110, R114): its operands are bytes that nothing checks. -/
def decodeReserved (t : Byte) (n k : Nat) (ops : List Byte) : Except LoadRefusal (Instr × List Byte) :=
  if ops.length < n then .error (.truncated k) else .ok (.reserved t (ops.take n), ops.drop n)

/-- The operands of a defined opcode, by its format (R102, R103, R104). -/
def decodeOperands (o : Opcode) (k : Nat) (ops : List Byte) : Except LoadRefusal (Instr × List Byte) :=
  match o with
  | .add => decodeFRR .add k ops
  | .sub => decodeFRR .sub k ops
  | .setret => decodeFI .setret k ops
  | .put => decodeFRI .put k ops
  | .mov => decodeFRR .mov k ops
  | .putmem => decodeFAI .putmem k ops
  | .push => decodeFR .push k ops
  | .pop => decodeFR .pop k ops
  | .exit => decodeF0 .exit ops
  | .nop => decodeF0 .nop ops
  | .cmp => decodeFRR .cmp k ops
  | .jump => decodeFA .jump k ops
  | .jz => decodeFA .jz k ops
  | .call => decodeFA .call k ops
  | .ret => decodeF0 .ret ops
  | .render => decodeF0 .render ops
  | .wait => decodeFI .wait k ops

/-- `decode_one` (R110): the instruction at offset `k`, whose bytes and those after it are given, and the bytes left over.
R110's caller ensures that there is a tag byte; without one the encoding is cut off. -/
def decodeOne (rt : ReservedTags) (k : Nat) : List Byte → Except LoadRefusal (Instr × List Byte)
  | [] => .error (.truncated k)
  | t :: ops =>
    match Opcode.ofTag? t with
    | some o => decodeOperands o k ops
    | none =>
      match rt.arity? t with
      | some n => decodeReserved t n k ops
      | none => .error (.illegalTag k t)

/-- The loop of `decode_image` (R111). Every instruction takes at least its tag byte, so a fuel of the number of bytes
never runs out. -/
def decodeLoop (rt : ReservedTags) : Nat → Nat → List Byte → Except LoadRefusal (List Instr)
  | _, _, [] => .ok []
  | 0, k, _ :: _ => .error (.truncated k)
  | fuel + 1, k, b :: bs => do
    let (i, rest) ← decodeOne rt k (b :: bs)
    let p ← decodeLoop rt fuel (k + i.size) rest
    return i :: p

/-- The bound of R40 and R111 on a program: refused when it has more than 65,535 instructions. -/
def checkLength (p : List Instr) : Except LoadRefusal (List Instr) :=
  if p.length > Config.maxProgramLen then .error (.programTooLong p.length) else .ok p

/-- `decode_image` (R111): a whole program image, or the first refusal in decode order (R110, R121). -/
def decodeImage (rt : ReservedTags) (b : List Byte) : Except LoadRefusal (List Instr) := do
  let p ← decodeLoop rt b.length 0 b
  checkLength p

/-! ### The encoder (R100) -/

/-- `encode`: the tag byte followed by each operand's byte in declared order (R100, R102). -/
def encode : Instr → List Byte
  | .add d s => [Opcode.add.tag, d.code, s.code]
  | .sub d s => [Opcode.sub.tag, d.code, s.code]
  | .setret i => [Opcode.setret.tag, i]
  | .put d i => [Opcode.put.tag, d.code, i]
  | .mov d s => [Opcode.mov.tag, d.code, s.code]
  | .putmem h l v => [Opcode.putmem.tag, h, l, v]
  | .push r => [Opcode.push.tag, r.code]
  | .pop r => [Opcode.pop.tag, r.code]
  | .exit => [Opcode.exit.tag]
  | .nop => [Opcode.nop.tag]
  | .cmp a b => [Opcode.cmp.tag, a.code, b.code]
  | .jump h l => [Opcode.jump.tag, h, l]
  | .jz h l => [Opcode.jz.tag, h, l]
  | .call h l => [Opcode.call.tag, h, l]
  | .ret => [Opcode.ret.tag]
  | .render => [Opcode.render.tag]
  | .wait i => [Opcode.wait.tag, i]
  | .reserved t ops => t :: ops

/-- The image of a program: the concatenated encodings (R14, R111). -/
def encodeProgram (p : List Instr) : List Byte := p.flatMap encode

/-! ### The codes of the refusals (D11; labels only, nothing reads them) -/

/-- The numeric code of a load refusal (D11). -/
def LoadRefusal.code : LoadRefusal → Byte
  | .illegalTag _ _ => 0x10
  | .illegalRegister _ _ => 0x11
  | .truncated _ => 0x12
  | .programTooLong _ => 0x13

/-! ### A table word -/

/-- The `n` bytes of a number, the most significant first: R101's numbering, which `opcode_table.json` uses, makes byte 0 of
an encoding the most significant byte. -/
def wordBytes (n w : Nat) : List Byte := (List.range n).map fun j => BitVec.ofNat 8 (w >>> (8 * (n - 1 - j)))

/-- The instruction the decoder reads from a table word of `nbits` bits (R101), followed by zero bytes up to the longest
encoding (4 bytes, R100). -/
def decodeTableWord (nbits w : Nat) : Option Instr :=
  match decodeOne Config.reservedNopTags 0 (wordBytes (nbits / 8) w ++ List.replicate (4 - nbits / 8) 0) with
  | .ok (i, _) => some i
  | .error _ => none

end Sys2Proof
end

