-- ==== Sys2Proof/Machine/State.lean ====
section
/-! DEFINITION. The state of one instance (spec/10_state.md R43), as plain data, and its value at construction (R42). -/

namespace Sys2Proof.Machine

/-- Why `step` has no next state. Neither is a fault of the spec: the spec's runtime faults (R401) are next states whose run
state is `RunState.faulted`. -/
inductive Fault where
  /-- Raised by `step` when the run state is not Running: R32 has a step only while it is, and R401 says of a faulted run
  that no later step exists. The machine waits for the host. Safe: the model stops (log entry 4). -/
  | noRunInProgress
  deriving DecidableEq, Repr

/-- Why `step` gives an instruction no meaning. -/
inductive Refusal where
  /-- Raised by `exec` for an instruction that has no meaning yet; no arm uses it. Safe. -/
  | notModelled (mnemonic : String)
  /-- Raised by `step` in a Running state without a program, which no run reaches: `execute()` refuses to start one
  (R502). Safe (log entry 4). -/
  | noProgram
  deriving DecidableEq, Repr

/-- The runtime fault kinds of the spec (R401). -/
inductive RunFault where
  /-- A push when 255 bytes are held (R35): PUSH and CALL. -/
  | stackOverflow
  /-- A pop when the stack is empty (R36): POP and RETURN. -/
  | stackUnderflow
  deriving DecidableEq, Repr

/-- The run state (R29). -/
inductive RunState where
  | ready
  | running
  /-- The run has ended with an exit code (R410, R411). -/
  | halted (code : Byte)
  /-- A runtime fault has aborted the run (R401). -/
  | faulted (kind : RunFault)
  deriving DecidableEq, Repr

/-- A port event of a run (R422). -/
inductive Event where
  /-- RENDER's request: the framebuffer bytes in address order (R301, R420). -/
  | render (frame : List Byte)
  /-- WAIT's request: whole seconds (R302, R421). -/
  | wait (secs : Byte)
  deriving DecidableEq, Repr

/-- The register file (R20, R21). -/
structure Regs where
  ax : Byte
  bx : Byte
  cx : Byte
  dx : Byte
  ret : Byte
  f1 : Byte
  f2 : Byte
  f3 : Byte
  f4 : Byte
  fret : Byte
  deriving DecidableEq, Repr

/-- Data memory (R38, R60): the bytes that are not 0, as cells in strictly rising order of address (`Memory.wf`). -/
abbrev Memory := List Host.Cell

/-- The complete state of one instance (R43). -/
structure State where
  /-- `x`, the ten registers (R20). -/
  regs : Regs
  /-- `ZF` (R24). -/
  zf : Bool
  /-- `CONT` (R27). -/
  cont : Bool
  /-- `MSET` (R28). -/
  mset : Bool
  /-- The index of the instruction that executes, or between steps of the next one (R26). -/
  pc : Word16
  /-- `SP`, the next free slot, 0..255 (R34). -/
  sp : Fin 256
  /-- `stk[0..254]` (R34). -/
  stk : Vector Byte 255
  /-- Data memory (R38). -/
  mem : Memory
  /-- The loaded program, or none (R40, R43). -/
  prog : Option (List Instr)
  /-- The run state (R29). -/
  run : RunState
  /-- The port events of the run, in program order (R422). -/
  history : List Event
  deriving DecidableEq, Repr

/-- An instance at construction (R42, column "at construction"), `zfInit` being the OPEN parameter `zf_init` (D7) and `p`
the optional initial program (R500). -/
def State.fresh (zfInit : Bool) (p : Option (List Instr)) : State where
  regs := ⟨0, 0, 0, 0, 0, 0, 0, 0, 0, 0⟩
  zf := zfInit
  cont := false
  mset := false
  pc := 0
  sp := 0
  stk := Vector.replicate 255 0
  mem := []
  prog := p
  run := .ready
  history := []

/-- The machine right after reset: an instance at construction without a program (R42, R504). ZF is DESIGN CHOICE false
(log entry 1), the history is DEDUCED empty (log entry 2). A program comes from outside (log entry 5). -/
def State.reset : State := State.fresh Config.zfInit none

end Sys2Proof.Machine
end

