-- ==== Sys2Proof/Machine/Ops.lean ====
section
/-! DEFINITION. The named operations over memory, registers, program counter, stack, ports and run state: the pseudocode
primitives of spec/00_scope.md R11, and the shared operation that takes a runtime fault (R401). There is no operation that
returns from one: R406 says that none exists. -/

namespace Sys2Proof.Machine

/-! ### Registers (R10, R20) -/

/-- `x[r]` of a register file. -/
def Regs.get (x : Regs) : Reg → Byte
  | .ax => x.ax | .bx => x.bx | .cx => x.cx | .dx => x.dx
  | .ret => x.ret
  | .f1 => x.f1 | .f2 => x.f2 | .f3 => x.f3 | .f4 => x.f4
  | .fret => x.fret

/-- A register file with `x[r]` replaced. -/
def Regs.set (x : Regs) (r : Reg) (v : Byte) : Regs :=
  match r with
  | .ax => { x with ax := v }
  | .bx => { x with bx := v }
  | .cx => { x with cx := v }
  | .dx => { x with dx := v }
  | .ret => { x with ret := v }
  | .f1 => { x with f1 := v }
  | .f2 => { x with f2 := v }
  | .f3 => { x with f3 := v }
  | .f4 => { x with f4 := v }
  | .fret => { x with fret := v }

/-- `x[r]` (R10). -/
def getReg (s : State) (r : Reg) : Byte := s.regs.get r

/-- `x[r] <- v` (R10). No register is hardwired (R22). -/
def setReg (r : Reg) (v : Byte) (s : State) : State := { s with regs := s.regs.set r v }

/-- `ZF <- b` (R10). -/
def setZf (b : Bool) (s : State) : State := { s with zf := b }

/-! ### Data memory (R60 to R64) -/

/-- What an address with no cell reads as: 0, the value at construction (R38, R68). -/
def Memory.unlisted : Byte := 0

/-- The byte at an address. -/
def Memory.read : Memory → Nat → Byte
  | [], _ => Memory.unlisted
  | (b, w) :: m, a => if a = b then w else Memory.read m a

/-- One byte written, in canonical form: writing the value an unlisted address reads as removes the cell. -/
def Memory.write : Memory → Nat → Byte → Memory
  | [], a, v => if v = Memory.unlisted then [] else [(a, v)]
  | (b, w) :: m, a, v =>
    if a < b then (if v = Memory.unlisted then (b, w) :: m else (a, v) :: (b, w) :: m)
    else if a = b then (if v = Memory.unlisted then m else (a, v) :: m)
    else (b, w) :: Memory.write m a v

/-- The canonical form: addresses strictly rising and in 0x0000..0xFFFF (R60), no cell that reads as unlisted. -/
abbrev Memory.wf (m : Memory) : Prop :=
  m.Pairwise (fun c d => c.1 < d.1) ∧ ∀ c ∈ m, c.1 < Config.memSize ∧ c.2 ≠ Memory.unlisted

/-- `mem[a]` (R10). -/
def readMem (s : State) (a : Word16) : Byte := s.mem.read a.toNat

/-- `MemWrite(a, 1, v)` (R63): an ordinary write, in the framebuffer too. -/
def memWrite (a : Word16) (v : Byte) (s : State) : State := { s with mem := s.mem.write a.toNat v }

/-- `MemRead(a, n)` (R64): the bytes at a, a+1, ..., in increasing order. Its only caller, RENDER, stays below the top of
memory (R64). -/
def memRead (s : State) (a : Word16) (n : Nat) : List Byte := (List.range n).map fun j => s.mem.read (a.toNat + j)

/-- The framebuffer snapshot (R64, R66): `MemRead(0x8000, 3840)`. -/
def framebuffer (s : State) : List Byte := memRead s Config.framebufferBase Config.framebufferLen

/-- `pixel_base(i, j)` (R67): the address of the red byte of pixel (column i, row j); green and blue follow it. -/
def pixelBase (i : Fin 40) (j : Fin 32) : Word16 := Config.framebufferBase + BitVec.ofNat 16 (i.val * 96 + j.val * 3)

/-! ### Program counter (R30, R31) -/

/-- `pc <- target` (R30), which also sets MSET. No bound is checked. -/
def setPc (target : Word16) (s : State) : State := { s with pc := target, mset := true }

/-- The end of a step (R31). -/
def endOfStep (s : State) : State := if s.mset then { s with mset := false } else { s with pc := s.pc + 1 }

/-- The instruction at an index of the program, none at or beyond its end (R32). -/
def fetchAt (p : List Instr) (pc : Word16) : Option Instr := p[pc.toNat]?

/-! ### Stack (R34 to R36) -/

/-- `StackPush(v)` (R35); none when 255 bytes are held already, where R35 raises StackOverflow. -/
def stackPush (v : Byte) (s : State) : Option State :=
  if h : s.sp.val < 255 then
    some { s with stk := s.stk.set s.sp.val v h, sp := ⟨s.sp.val + 1, by omega⟩ }
  else none

/-- `StackPop()` (R36), which does not clear the slot; none when the stack is empty, where R36 raises StackUnderflow. -/
def stackPop (s : State) : Option (Byte × State) :=
  if h : 0 < s.sp.val then
    some (s.stk[s.sp.val - 1]'(by omega), { s with sp := ⟨s.sp.val - 1, by omega⟩ })
  else none

/-! ### Ports (R420 to R422) -/

/-- `emit e`: the request is recorded at the end of the run's history (R422). The sink and the delay always return (R420,
R421, D26). -/
def emit (e : Event) (s : State) : State := { s with history := s.history ++ [e] }

/-! ### The end of a run (R401, R410, R411) -/

/-- `raise Fault(kind)` (R401, R402): the run state becomes Faulted(kind) and nothing else changes; the pc is that of the
faulting instruction. -/
def raiseFault (k : RunFault) (s : State) : State := { s with run := .faulted k }

/-- The implicit halt (R32, R411): 255 into ReturnValue, exit code 255. -/
def implicitHalt (s : State) : State :=
  { setReg .ret Config.implicitHaltCode s with run := .halted Config.implicitHaltCode }

/-- The loop test of R32: without CONT the run halts with the byte in ReturnValue (R410). -/
def loopTest (s : State) : State := if s.cont then s else { s with run := .halted (getReg s .ret) }

/-- What a step does after the instruction's own rule (R32): end of step and loop test, unless the instruction raised a
fault (R402). -/
def afterInstr (s : State) : State :=
  match s.run with
  | .faulted _ => s
  | .ready | .running | .halted _ => loopTest (endOfStep s)

/-- The numeric code of a runtime fault (R401; a label only, D11). -/
def RunFault.code : RunFault → Byte
  | .stackOverflow => 0x01
  | .stackUnderflow => 0x02

/-! ### A program with an instruction put at an index -/

/-- A program whose instruction at index `k` is `i`; NOPs fill a gap before it. -/
def placeAt (p : List Instr) (k : Nat) (i : Instr) : List Instr :=
  p.take k ++ List.replicate (k - p.length) .nop ++ i :: p.drop (k + 1)

end Sys2Proof.Machine
end

