-- ==== Sys2Proof/Machine/Operands.lean ====
section
/-! DEFINITION. The operand forms (spec/30_encoding.md R103, R106, R107): a register, an immediate byte, an address as two
bytes. No other form exists (R62, R285). -/

namespace Sys2Proof.Machine

/-- A register operand's value (R22: all ten alike). -/
def regOperand (s : State) (r : Reg) : Byte := getReg s r

/-- An immediate operand (R107): the byte as it is. -/
def immOperand (i : Byte) : Byte := i

/-- The target of JUMP, JZ and CALL (R106): an absolute instruction index. -/
def jumpTarget (h l : Byte) : Word16 := addrOf h l

/-- The data address of PUTMEM (R62, R106). -/
def dataAddress (h l : Byte) : Word16 := addrOf h l

end Sys2Proof.Machine
end

