-- ==== Sys2Proof/Machine/Flags.lean ====
section
/-! DEFINITION. The ALU and the zero flag (spec/41_arithmetic.md R200, R201; spec/43_compare.md R240). ZF is the only flag
(R25). -/

namespace Sys2Proof.Machine

/-- The operation input of the ALU (R200). -/
inductive AluOp where
  | add | sub | cmp
  deriving DecidableEq, Repr

/-- The outputs of the ALU (R200). -/
structure AluOut where
  result : Byte
  z : Bool
  /-- Whether `result` is written to the destination register. -/
  wr : Bool
  deriving DecidableEq, Repr

/-- CMP's zero output, as R240 transcribes it: without a borrow whether the difference is 0, with a borrow false. -/
def cmpZero (a b : Byte) : Bool := if b.toNat ≤ a.toNat then a - b == 0 else false

/-- The ALU (R200): arithmetic on bytes is modulo 256 (R201). -/
def alu (op : AluOp) (a b : Byte) : AluOut :=
  match op with
  | .add => { result := a + b, z := a + b == 0, wr := true }
  | .sub => { result := a - b, z := a - b == 0, wr := true }
  | .cmp => { result := a - b, z := cmpZero a b, wr := false }

/-- An ALU instruction on two registers: both are read before the write (R202, R522), `z` goes to ZF (R200). -/
def aluInstr (op : AluOp) (d r : Reg) (s : State) : State :=
  let o := alu op (regOperand s d) (regOperand s r)
  setZf o.z (if o.wr then setReg d o.result s else s)

end Sys2Proof.Machine
end

