-- ==== Sys2Proof/Machine/Arithmetic.lean ====
section
/-! DEFINITION. ADD, SUB (spec/41_arithmetic.md) and CMP (spec/43_compare.md). -/

namespace Sys2Proof.Machine

/-- ADD (R202): x[d] + x[r] modulo 256 to d, ZF from the result. -/
def execAdd (d r : Reg) (s : State) : Host.Outcome State Fault Refusal := .next (aluInstr .add d r s)

/-- SUB (R203): x[d] - x[r] modulo 256 to d (the spec's operand order, D4), ZF from the result. -/
def execSub (d r : Reg) (s : State) : Host.Outcome State Fault Refusal := .next (aluInstr .sub d r s)

/-- CMP (R240): ZF only. -/
def execCmp (a b : Reg) (s : State) : Host.Outcome State Fault Refusal := .next (aluInstr .cmp a b s)

end Sys2Proof.Machine
end

