-- ==== Sys2Proof/Machine/Control.lean ====
section
/-! DEFINITION. JUMP, JZ, CALL and RETURN (spec/45_control.md). -/

namespace Sys2Proof.Machine

/-- JUMP (R280). -/
def execJump (h l : Byte) (s : State) : Host.Outcome State Fault Refusal := .next (setPc (jumpTarget h l) s)

/-- JZ (R281): taken when ZF is set, otherwise nothing (the end of the step advances the pc). -/
def execJz (h l : Byte) (s : State) : Host.Outcome State Fault Refusal :=
  .next (if s.zf then setPc (jumpTarget h l) s else s)

/-- The two pushes of CALL (R282): the low byte of the return address, then its high byte. -/
def pushReturnAddress (ra : Word16) (s : State) : Option State := do
  let t ← stackPush (loByte ra) s
  stackPush (hiByte ra) t

/-- The two pops of RETURN (R283): the high byte, then the low byte. -/
def popReturnAddress (s : State) : Option (Word16 × State) := do
  let (hi, t) ← stackPop s
  let (lo, u) ← stackPop t
  return (addrOf hi lo, u)

/-- CALL (R282): the return address is pc + 1. When a push overflows, the fault leaves no other effect (R402). -/
def execCall (h l : Byte) (s : State) : Host.Outcome State Fault Refusal :=
  match pushReturnAddress (s.pc + 1) s with
  | some t => .next (setPc (jumpTarget h l) t)
  | none => .next (raiseFault .stackOverflow s)

/-- RETURN (R283). When a pop underflows, the fault leaves no other effect (R402). -/
def execRet (s : State) : Host.Outcome State Fault Refusal :=
  match popReturnAddress s with
  | some (ra, t) => .next (setPc ra t)
  | none => .next (raiseFault .stackUnderflow s)

end Sys2Proof.Machine
end

