-- ==== Sys2Proof/Machine/MemoryIo.lean ====
section
/-! DEFINITION. PUTMEM, RENDER and WAIT (spec/46_memory_io.md). -/

namespace Sys2Proof.Machine

/-- PUTMEM (R300). -/
def execPutmem (h l v : Byte) (s : State) : Host.Outcome State Fault Refusal :=
  .next (memWrite (dataAddress h l) (immOperand v) s)

/-- RENDER (R301): the framebuffer as it is at this step goes to the display port. -/
def execRender (s : State) : Host.Outcome State Fault Refusal := .next (emit (.render (framebuffer s)) s)

/-- WAIT (R302): the event, and no other effect (D24). -/
def execWait (i : Byte) (s : State) : Host.Outcome State Fault Refusal := .next (emit (.wait (immOperand i)) s)

end Sys2Proof.Machine
end

