-- ==== Sys2Proof/Machine/Moves.lean ====
section
/-! DEFINITION. SETRET, PUT and MOV (spec/42_moves.md): copies with no flag effect. -/

namespace Sys2Proof.Machine

/-- SETRET (R220). -/
def execSetret (i : Byte) (s : State) : Host.Outcome State Fault Refusal := .next (setReg .ret (immOperand i) s)

/-- PUT (R221). -/
def execPut (d : Reg) (i : Byte) (s : State) : Host.Outcome State Fault Refusal := .next (setReg d (immOperand i) s)

/-- MOV (R222). -/
def execMov (d r : Reg) (s : State) : Host.Outcome State Fault Refusal := .next (setReg d (regOperand s r) s)

end Sys2Proof.Machine
end

