-- ==== Sys2Proof/Machine/Stack.lean ====
section
/-! DEFINITION. PUSH and POP (spec/44_stack.md). -/

namespace Sys2Proof.Machine

/-- PUSH (R260): on a full stack it takes the fault StackOverflow. -/
def execPush (r : Reg) (s : State) : Host.Outcome State Fault Refusal :=
  match stackPush (regOperand s r) s with
  | some t => .next t
  | none => .next (raiseFault .stackOverflow s)

/-- POP (R261): on an empty stack it takes the fault StackUnderflow, and r is not written. -/
def execPop (r : Reg) (s : State) : Host.Outcome State Fault Refusal :=
  match stackPop s with
  | some (v, t) => .next (setReg r v t)
  | none => .next (raiseFault .stackUnderflow s)

end Sys2Proof.Machine
end

