-- ==== Sys2Proof/Machine/System.lean ====
section
/-! DEFINITION. EXIT, NOP and the reserved no-op (spec/47_system.md). -/

namespace Sys2Proof.Machine

/-- EXIT (R320): clears CONT; it writes no register. -/
def execExit (s : State) : Host.Outcome State Fault Refusal := .next { s with cont := false }

/-- NOP (R321). -/
def execNop (s : State) : Host.Outcome State Fault Refusal := .next s

/-- The reserved no-op (R322): tag and operands are ignored. -/
def execReserved (_tag : Byte) (_ops : List Byte) (s : State) : Host.Outcome State Fault Refusal := .next s

end Sys2Proof.Machine
end

