-- ==== Sys2Proof/Machine/Dispatch.lean ====
section
/-! DEFINITION. One arm per instruction: its own effect (spec/41 to 47), before the end-of-step part of R31. -/

namespace Sys2Proof.Machine

def exec (i : Instr) (s : State) : Host.Outcome State Fault Refusal :=
  match i with
  | .add d r => Sys2Proof.Machine.execAdd d r s
  | .sub d r => Sys2Proof.Machine.execSub d r s
  | .setret v => Sys2Proof.Machine.execSetret v s
  | .put d v => Sys2Proof.Machine.execPut d v s
  | .mov d r => Sys2Proof.Machine.execMov d r s
  | .putmem h l v => Sys2Proof.Machine.execPutmem h l v s
  | .push r => Sys2Proof.Machine.execPush r s
  | .pop r => Sys2Proof.Machine.execPop r s
  | .exit => Sys2Proof.Machine.execExit s
  | .nop => Sys2Proof.Machine.execNop s
  | .cmp a b => Sys2Proof.Machine.execCmp a b s
  | .jump h l => Sys2Proof.Machine.execJump h l s
  | .jz h l => Sys2Proof.Machine.execJz h l s
  | .call h l => Sys2Proof.Machine.execCall h l s
  | .ret => Sys2Proof.Machine.execRet s
  | .render => Sys2Proof.Machine.execRender s
  | .wait v => Sys2Proof.Machine.execWait v s
  | .reserved tag ops => Sys2Proof.Machine.execReserved tag ops s

end Sys2Proof.Machine
end

