-- ==== Sys2Proof/Machine/Step.lean ====
section
/-! DEFINITION. One step of the instruction cycle (spec/10_state.md R32), and the host's way of placing an instruction. -/

namespace Sys2Proof.Machine

/-- One step of R32: the check for the end of the program, the fetch, the instruction's rule, the end of the step and the
loop test. Outside a run there is no step (log entry 4). -/
def step (s : State) : Host.Outcome State Fault Refusal :=
  match s.run with
  | .ready | .halted _ | .faulted _ => .fault .noRunInProgress
  | .running =>
    match s.prog with
    | none => .refused .noProgram
    | some p =>
      match fetchAt p s.pc with
      | none => .next (implicitHalt s)
      | some i =>
        match exec i s with
        | .next t => .next (afterInstr t)
        | .fault f => .fault f
        | .refused r => .refused r

/-- The load of a program that puts the table word's instruction at the pc, and the start of a run there (log entry 5). A
word the decoder refuses is not loaded: the state is unchanged (R121). -/
def State.withFetchWord (s : State) (nbits w : Nat) : State :=
  match decodeTableWord nbits w with
  | none => s
  | some i => { s with prog := some (placeAt (s.prog.getD []) s.pc.toNat i), cont := true, run := .running }

end Sys2Proof.Machine
end

