-- ==== Sys2Proof/WellFormed.lean ====
section
/-! DEFINITION. What the spec asks of an instruction and of the parameter RESERVED_NOP_TAGS beyond their types: the domain
of the map is disjoint from the 17 tags, its arities are 0 to 3, it is a map (spec/30_encoding.md R114); a reserved no-op
has a tag of the map and as many operand bytes as the map says (R110, R114); a program has at most 65,535 instructions
(R40). Every other instruction is well-formed by its type (R109). -/

namespace Sys2Proof

/-- R114: a finite partial map from tag bytes to arities 0..3 whose domain is disjoint from the 17 tags of R104. -/
abbrev ReservedTags.wf (rt : ReservedTags) : Prop :=
  (∀ e ∈ rt, e.2 ≤ 3 ∧ Opcode.ofTag? e.1 = none) ∧ (rt.map Prod.fst).Nodup

/-- An instruction the parameter `rt` lets exist (R109, R114). -/
def Instr.wf (rt : ReservedTags) : Instr → Bool
  | .reserved t ops => decide (Opcode.ofTag? t = none) && decide (rt.arity? t = some ops.length)
  | .add _ _ | .sub _ _ | .setret _ | .put _ _ | .mov _ _ | .putmem _ _ _ | .push _ | .pop _ | .exit | .nop | .cmp _ _
  | .jump _ _ | .jz _ _ | .call _ _ | .ret | .render | .wait _ => true

/-- A program that the parameter `rt` lets be loaded (R40, R109). -/
def Program.wf (rt : ReservedTags) (p : List Instr) : Bool :=
  p.all (Instr.wf rt) && decide (p.length ≤ Config.maxProgramLen)

end Sys2Proof
end

