-- ==== Sys2Proof/Machine/HostOps.lean ====
section
/-! DEFINITION. The host's operations on an instance between runs (spec/70_reset_and_hazards.md R500 to R505): new,
load_program, unload_program and execute(), whose reset is the only reset of the core. A refusal answers no state: the
instance keeps the one it has (R121, R502). -/

namespace Sys2Proof.Machine

/-- What the host is told when an operation is refused. -/
inductive HostError where
  /-- `execute()` without a program (R502, D19). -/
  | noProgram
  /-- A load that is refused (R121, R500). -/
  | load (r : LoadRefusal)
  /-- A program handed over with an instruction that RESERVED_NOP_TAGS does not let exist (R109, R322). The spec gives this
  refusal no name. DESIGN CHOICE, safe (log entry 11). -/
  | noSuchInstruction (i : Instr)
  /-- An operation during a run: R500 says that none can happen. DESIGN CHOICE, safe (log entry 9). -/
  | runInProgress
  deriving DecidableEq, Repr

/-- An operation of the host on an instance (R500). -/
inductive HostOp where
  /-- `load_program` of a list of decoded instructions. -/
  | loadProgram (p : List Instr)
  /-- `load_program` of a byte image, decoded whole first. -/
  | loadImage (b : List Byte)
  | unloadProgram
  /-- `execute()`, as far as its reset: the run itself is the steps that follow. -/
  | execute
  deriving DecidableEq, Repr

/-- What `execute()` gives back (R401, R412, R503), with the state it leaves. -/
inductive RunResult where
  /-- The exit code (R410, R411). -/
  | exited (code : Byte)
  /-- The fault kind and the pc of the faulting instruction, no exit code (R401, D12). -/
  | faulted (kind : RunFault) (pc : Word16)
  /-- The fuel ran out: the run has not ended yet (R413). -/
  | stillRunning
  deriving DecidableEq, Repr

/-- A load refusal as the host's error. -/
def asHostError : Except LoadRefusal (List Instr) → Except HostError (List Instr)
  | .ok p => .ok p
  | .error r => .error (.load r)

/-- A program handed over as decoded instructions: it has at most 65,535 (R500), and a reserved no-op among them has a tag
of RESERVED_NOP_TAGS, with as many operand bytes as the map says (R109, R114, R322). The length is checked first, and the
first instruction that does not exist is named (DESIGN CHOICE, safe: log entry 11). -/
def acceptProgram (rt : ReservedTags) (p : List Instr) : Except HostError (List Instr) := do
  let p ← asHostError (checkLength p)
  match p.find? fun i => !i.wf rt with
  | none => return p
  | some i => .error (.noSuchInstruction i)

/-- `new` (R500): an instance at construction, with its optional initial program. When that program is refused, the answer
is the error and there is no instance: R500 says only that it is refused, and R121 speaks of an instance that exists already
(DESIGN CHOICE, safe: log entry 18). The initial program comes as decoded instructions only: whether it may come as a byte
image R500 leaves open (DESIGN CHOICE, safe: log entry 19). -/
def hostNew (rt : ReservedTags) (zfInit : Bool) (p : Option (List Instr)) : Except HostError State :=
  match p with
  | none => .ok (State.fresh zfInit none)
  | some p => do
    let p ← acceptProgram rt p
    return State.fresh zfInit (some p)

/-- `load_program` (R500, R501): only the program reference changes. -/
def loadProgram (rt : ReservedTags) (p : List Instr) (s : State) : Except HostError State := do
  let p ← acceptProgram rt p
  return { s with prog := some p }

/-- `load_program` of a byte image (R500): decoded whole, then loaded. -/
def loadImage (rt : ReservedTags) (b : List Byte) (s : State) : Except HostError State := do
  let p ← asHostError (decodeImage rt b)
  return { s with prog := some p }

/-- `unload_program` (R500, R501). -/
def unloadProgram (s : State) : State := { s with prog := none }

/-- The reset of `execute()` (R503): the registers, ZF, the memory and the program are kept (R505, R68). -/
def runReset (s : State) : State :=
  { s with
    pc := 0
    sp := 0
    stk := Vector.replicate 255 0
    mset := false
    cont := true
    history := []
    run := .running }

/-- `execute()` up to its first step (R502, R503). -/
def beginRun (s : State) : Except HostError State :=
  match s.prog with
  | none => .error .noProgram
  | some _ => .ok (runReset s)

/-- An operation of the host; none can happen during a run (R500). -/
def hostStep (rt : ReservedTags) (op : HostOp) (s : State) : Except HostError State :=
  if s.run = .running then .error .runInProgress
  else
    match op with
    | .loadProgram p => loadProgram rt p s
    | .loadImage b => loadImage rt b s
    | .unloadProgram => .ok (unloadProgram s)
    | .execute => beginRun s

/-- The loop of `execute()` (R503), at most `fuel` steps (R413): it ends where the machine has no next step. -/
def runLoop : Nat → State → State
  | 0, s => s
  | fuel + 1, s =>
    match step s with
    | .next t => runLoop fuel t
    | .fault _ | .refused _ => s

/-- What the run state says of a run (R412). -/
def runResult (s : State) : RunResult :=
  match s.run with
  | .halted c => .exited c
  | .faulted k => .faulted k s.pc
  | .ready | .running => .stillRunning

/-- `execute()` (R503) with at most `fuel` steps: what the host gets back and the state it leaves. -/
def execute (fuel : Nat) (s : State) : Except HostError (RunResult × State) :=
  if s.run = .running then .error .runInProgress
  else do
    let s ← beginRun s
    let t := runLoop fuel s
    return (runResult t, t)

/-- The numeric code of a host error, where the spec gives one (D11; a label only). -/
def HostError.code? : HostError → Option Byte
  | .noProgram => some 0x20
  | .load r => some r.code
  | .runInProgress | .noSuchInstruction _ => none

end Sys2Proof.Machine
end

