-- ==== Sys2Proof/Machine/Text.lean ====
section
/-! DEFINITION. The assembly text: tokens, statements, the lexer and the parser (spec/30_encoding.md R130, R131). Both read
their input one item at a time and keep what they have read of the current token or statement as a mode. -/

namespace Sys2Proof.Machine

/-- An identifier: a mnemonic, a register name or a label name, as its characters. -/
abbrev Ident := List Char

/-- A token (R130, R131). A `$` and the identifier after it are one token, an `@` and its name too (log entry 6). -/
inductive Token where
  | ident (n : Ident)
  | number (n : Nat)
  | register (n : Ident)
  | label (n : Ident)
  | comma
  | semicolon
  deriving DecidableEq, Repr

/-- An operand as pass 1 keeps it, unresolved (R133). -/
inductive AsmOperand where
  | number (n : Nat)
  | registerRef (n : Ident)
  | labelRef (n : Ident)
  deriving DecidableEq, Repr

/-- A statement (R130). -/
inductive Statement where
  | labelDecl (n : Ident)
  | operation (m : Ident) (ops : List AsmOperand)
  deriving DecidableEq, Repr

/-- What the lexer has read of the current token. -/
inductive LexMode where
  | gap
  | ident (n : Ident)
  | number (n : Nat)
  | dollar
  | register (n : Ident)
  | sigil
  | label (n : Ident)
  deriving DecidableEq, Repr

/-- What the parser has read of the current statement. -/
inductive ParseMode where
  | start
  | mnemonic (m : Ident)
  | wantOperand (m : Ident) (ops : List AsmOperand)
  | operands (m : Ident) (ops : List AsmOperand)
  deriving DecidableEq, Repr

/-! ### Characters (R131) -/

/-- Space, tab, CR and LF. -/
def isBlank (c : Char) : Bool := c == ' ' || c == '\t' || c == '\r' || c == '\n'

/-- `[0-9]`. -/
def isDecimal (c : Char) : Bool := '0' ≤ c && c ≤ '9'

/-- `[A-Za-z_]`. -/
def isIdentStart (c : Char) : Bool := ('A' ≤ c && c ≤ 'Z') || ('a' ≤ c && c ≤ 'z') || c == '_'

/-- `[A-Za-z0-9_]`. -/
def isIdentChar (c : Char) : Bool := isIdentStart c || isDecimal c

/-- An ASCII small letter as its capital, any other character as it is: mnemonics are compared so (R132). -/
def upperChar (c : Char) : Char := if 'a' ≤ c && c ≤ 'z' then Char.ofNat (c.toNat - 32) else c

/-! ### The lexer (R131): longest match, whitespace between tokens -/

/-- The character begins a token or is whitespace; none where no token begins with it. -/
def startToken (c : Char) : Option (LexMode × List Token) :=
  if isBlank c then some (.gap, [])
  else if isIdentStart c then some (.ident [c], [])
  else if isDecimal c then some (.number (c.toNat - '0'.toNat), [])
  else if c == '$' then some (.dollar, [])
  else if c == '@' then some (.sigil, [])
  else if c == ',' then some (.gap, [.comma])
  else if c == ';' then some (.gap, [.semicolon])
  else none

/-- A token ends before the character, which begins the next one. -/
def endToken (t : Token) (c : Char) : Option (LexMode × List Token) :=
  (startToken c).map fun (m, ts) => (m, t :: ts)

/-- One character: the new mode and the tokens that are complete. -/
def lexChar (m : LexMode) (c : Char) : Option (LexMode × List Token) :=
  match m with
  | .gap => startToken c
  | .ident n => if isIdentChar c then some (.ident (n ++ [c]), []) else endToken (.ident n) c
  | .number n => if isDecimal c then some (.number (n * 10 + (c.toNat - '0'.toNat)), []) else endToken (.number n) c
  | .dollar => if isIdentStart c then some (.register [c], []) else none
  | .register n => if isIdentChar c then some (.register (n ++ [c]), []) else endToken (.register n) c
  | .sigil => if isIdentStart c then some (.label [c], []) else none
  | .label n => if isIdentChar c then some (.label (n ++ [c]), []) else endToken (.label n) c

/-- The end of the text completes the current token; none after a lone `$` or `@`. -/
def lexEnd : LexMode → Option (List Token)
  | .gap => some []
  | .ident n => some [.ident n]
  | .number n => some [.number n]
  | .register n => some [.register n]
  | .label n => some [.label n]
  | .dollar | .sigil => none

/-- The tokens of a text from a mode on. -/
def lexFrom : LexMode → List Char → Option (List Token)
  | m, [] => lexEnd m
  | m, c :: cs => do
    let (m', ts) ← lexChar m c
    let rest ← lexFrom m' cs
    return ts ++ rest

/-- The tokens of a text (R131); none where the text matches no token. -/
def lex (text : List Char) : Option (List Token) := lexFrom .gap text

/-! ### The parser (R130) -/

/-- The operand a token is, if it is one. -/
def operandOf : Token → Option AsmOperand
  | .number n => some (.number n)
  | .register n => some (.registerRef n)
  | .label n => some (.labelRef n)
  | .ident _ | .comma | .semicolon => none

/-- One token: the new mode and the statement that is complete, if one is. A statement that begins with a label token is a
declaration; a label token in an operand position is a reference (R130). -/
def parseToken (m : ParseMode) (t : Token) : Option (ParseMode × List Statement) :=
  match m with
  | .start =>
    match t with
    | .label n => some (.start, [.labelDecl n])
    | .ident n => some (.mnemonic n, [])
    | .number _ | .register _ | .comma | .semicolon => none
  | .mnemonic n =>
    if t = .semicolon then some (.start, [.operation n []])
    else (operandOf t).map fun o => (.operands n [o], [])
  | .wantOperand n ops => (operandOf t).map fun o => (.operands n (ops ++ [o]), [])
  | .operands n ops =>
    if t = .semicolon then some (.start, [.operation n ops])
    else if t = .comma then some (.wantOperand n ops, [])
    else none

/-- The statements of a token list from a mode on; none where the list ends inside a statement. -/
def parseFrom : ParseMode → List Token → Option (List Statement)
  | m, [] => if m = .start then some [] else none
  | m, t :: ts => do
    let (m', sts) ← parseToken m t
    let rest ← parseFrom m' ts
    return sts ++ rest

/-- The statements of a text (R130, R131); none is a SyntaxError. -/
def parseText (text : List Char) : Option (List Statement) := do
  let ts ← lex text
  parseFrom .start ts

end Sys2Proof.Machine
end

