-- ==== Sys2Proof/Machine/Resolver.lean ====
section
/-! DEFINITION. The mnemonics (spec/30_encoding.md R132) and the two-pass label resolver (R133 to R145). Which error a text
with several errors reports is left open (R143, D17): the functions report the first in the order of R133 and R136, and no
claim may depend on which it is (log entry 7). -/

namespace Sys2Proof.Machine

/-- The assembly errors (R143). Each refuses the whole text. -/
inductive AsmError where
  /-- The text matches no production of R130 and R131. -/
  | syntaxError
  | unknownMnemonic (m : Ident)
  | arityMismatch (m : Ident) (n : Nat)
  | duplicateLabel (n : Ident)
  | programTooLong (count : Nat)
  | undefinedLabel (n : Ident)
  | labelMisplaced (n : Ident)
  | unknownRegister (n : Ident)
  | immediateOutOfRange (v : Nat)
  | operandKindMismatch
  deriving DecidableEq, Repr

/-- The label table: names and instruction indices (R133). -/
abbrev Labels := List (Ident × Nat)

/-- What pass 1 has read so far (R133). -/
structure Pass1 where
  labels : Labels
  pending : List (Opcode × List AsmOperand)
  count : Nat
  deriving DecidableEq, Repr

/-! ### Names (R20, R132) -/

/-- The assembler name of a register (R20). -/
def regName : Reg → Ident
  | .ax => ['a', 'x'] | .bx => ['b', 'x'] | .cx => ['c', 'x'] | .dx => ['d', 'x']
  | .ret => ['r', 'e', 't']
  | .f1 => ['f', '1'] | .f2 => ['f', '2'] | .f3 => ['f', '3'] | .f4 => ['f', '4']
  | .fret => ['f', 'r', 'e', 't']

/-- The register of exactly this name, in lower case (R131). -/
def regOfName? (n : Ident) : Option Reg := Reg.all.find? fun r => regName r == n

/-- The text mnemonic of an opcode (R132). -/
def mnemonic : Opcode → Ident
  | .add => ['A', 'D', 'D']
  | .sub => ['S', 'U', 'B']
  | .setret => ['S', 'E', 'T', 'R', 'E', 'T']
  | .put => ['P', 'U', 'T']
  | .mov => ['M', 'O', 'V']
  | .putmem => ['P', 'U', 'T', 'M', 'E', 'M']
  | .push => ['P', 'U', 'S', 'H']
  | .pop => ['P', 'O', 'P']
  | .exit => ['E', 'X', 'I', 'T']
  | .nop => ['N', 'O', 'P']
  | .cmp => ['C', 'M', 'P']
  | .jump => ['J', 'U', 'M', 'P']
  | .jz => ['J', 'Z']
  | .call => ['C', 'A', 'L', 'L']
  | .ret => ['R', 'E', 'T', 'U', 'R', 'N']
  | .render => ['R', 'E', 'N', 'D', 'E', 'R']
  | .wait => ['W', 'A', 'I', 'T']

/-- The opcode a mnemonic names, whatever the case of its letters (R132). -/
def opcodeOfMnemonic? (m : Ident) : Option Opcode := Opcode.all.find? fun o => mnemonic o == m.map upperChar

/-- The text arity (R132): 1 for JUMP, JZ and CALL, the binary arity for the others (R142). -/
def textArity : Opcode → Nat
  | .exit | .nop | .ret | .render => 0
  | .setret | .push | .pop | .wait | .jump | .jz | .call => 1
  | .add | .sub | .put | .mov | .cmp => 2
  | .putmem => 3

/-! ### Pass 1 (R133 to R135, R141) -/

/-- One statement of pass 1 (R133). -/
def pass1Step (a : Pass1) (st : Statement) : Except AsmError Pass1 :=
  match st with
  | .labelDecl n =>
    if (List.lookup n a.labels).isSome then .error (.duplicateLabel n)
    else .ok { a with labels := a.labels ++ [(n, a.count)] }
  | .operation m ops =>
    match opcodeOfMnemonic? m with
    | none => .error (.unknownMnemonic m)
    | some o =>
      if ops.length ≠ textArity o then .error (.arityMismatch m ops.length)
      else .ok { a with pending := a.pending ++ [(o, ops)], count := a.count + 1 }

/-- The statements of pass 1 in order (R133). -/
def pass1Loop (a : Pass1) : List Statement → Except AsmError Pass1
  | [] => .ok a
  | st :: sts => do
    let a' ← pass1Step a st
    pass1Loop a' sts

/-- Pass 1 (R133): the pending operations and the label table, or the first error. -/
def pass1 (sts : List Statement) : Except AsmError Pass1 := do
  let a ← pass1Loop ⟨[], [], 0⟩ sts
  if a.count > Config.maxProgramLen then .error (.programTooLong a.count) else .ok a

/-! ### Pass 2 (R136 to R140, R145) -/

/-- The resolver (R145): a label's index as (high byte, low byte). -/
def resolveLabel (labels : Labels) (n : Ident) : Except AsmError (Byte × Byte) :=
  match List.lookup n labels with
  | none => .error (.undefinedLabel n)
  | some idx => .ok (hiByte (BitVec.ofNat 16 idx), loByte (BitVec.ofNat 16 idx))

/-- An operand in a register position (R136, R137, R139). -/
def asRegister : AsmOperand → Except AsmError Reg
  | .labelRef n => .error (.labelMisplaced n)
  | .registerRef n =>
    match regOfName? n with
    | none => .error (.unknownRegister n)
    | some r => .ok r
  | .number _ => .error .operandKindMismatch

/-- An operand in an immediate position (R136, R137, R139, R140). -/
def asImmediate : AsmOperand → Except AsmError Byte
  | .labelRef n => .error (.labelMisplaced n)
  | .number v => if v > 255 then .error (.immediateOutOfRange v) else .ok (BitVec.ofNat 8 v)
  | .registerRef _ => .error .operandKindMismatch

/-- The operand of CALL, JUMP and JZ (R136, R138). -/
def asTarget (labels : Labels) : AsmOperand → Except AsmError (Byte × Byte)
  | .labelRef n => resolveLabel labels n
  | .number _ | .registerRef _ => .error .operandKindMismatch

/-- The answer for an operation whose operand count pass 1 would have refused (R133). -/
def wrongArity (o : Opcode) (ops : List AsmOperand) : Except AsmError Instr :=
  .error (.arityMismatch (mnemonic o) ops.length)

/-- An operation without operands. -/
def resolve0 (o : Opcode) (c : Instr) : List AsmOperand → Except AsmError Instr
  | [] => .ok c
  | ops => wrongArity o ops

/-- `$r`. -/
def resolveR (o : Opcode) (c : Reg → Instr) : List AsmOperand → Except AsmError Instr
  | [r] => do
    let r ← asRegister r
    return c r
  | ops => wrongArity o ops

/-- `i`. -/
def resolveI (o : Opcode) (c : Byte → Instr) : List AsmOperand → Except AsmError Instr
  | [i] => do
    let i ← asImmediate i
    return c i
  | ops => wrongArity o ops

/-- `$d, $s`. -/
def resolveRR (o : Opcode) (c : Reg → Reg → Instr) : List AsmOperand → Except AsmError Instr
  | [d, r] => do
    let d ← asRegister d
    let r ← asRegister r
    return c d r
  | ops => wrongArity o ops

/-- `$d, i`. -/
def resolveRI (o : Opcode) (c : Reg → Byte → Instr) : List AsmOperand → Except AsmError Instr
  | [d, i] => do
    let d ← asRegister d
    let i ← asImmediate i
    return c d i
  | ops => wrongArity o ops

/-- `h, l, v`. -/
def resolveIII (o : Opcode) (c : Byte → Byte → Byte → Instr) : List AsmOperand → Except AsmError Instr
  | [h, l, v] => do
    let h ← asImmediate h
    let l ← asImmediate l
    let v ← asImmediate v
    return c h l v
  | ops => wrongArity o ops

/-- `@label`, promoted to the two-operand binary form (R136). -/
def resolveT (labels : Labels) (o : Opcode) (c : Byte → Byte → Instr) : List AsmOperand → Except AsmError Instr
  | [t] => do
    let (h, l) ← asTarget labels t
    return c h l
  | ops => wrongArity o ops

/-- One operation of pass 2 (R136), by the text operand forms of R132. -/
def resolveOp (labels : Labels) (o : Opcode) (ops : List AsmOperand) : Except AsmError Instr :=
  match o with
  | .add => resolveRR .add .add ops
  | .sub => resolveRR .sub .sub ops
  | .setret => resolveI .setret .setret ops
  | .put => resolveRI .put .put ops
  | .mov => resolveRR .mov .mov ops
  | .putmem => resolveIII .putmem .putmem ops
  | .push => resolveR .push .push ops
  | .pop => resolveR .pop .pop ops
  | .exit => resolve0 .exit .exit ops
  | .nop => resolve0 .nop .nop ops
  | .cmp => resolveRR .cmp .cmp ops
  | .jump => resolveT labels .jump .jump ops
  | .jz => resolveT labels .jz .jz ops
  | .call => resolveT labels .call .call ops
  | .ret => resolve0 .ret .ret ops
  | .render => resolve0 .render .render ops
  | .wait => resolveI .wait .wait ops

/-- Pass 2 (R136): every pending operation becomes one instruction, in order. -/
def pass2 (labels : Labels) : List (Opcode × List AsmOperand) → Except AsmError (List Instr)
  | [] => .ok []
  | (o, ops) :: rest => do
    let i ← resolveOp labels o ops
    let p ← pass2 labels rest
    return i :: p

/-- Both passes over the statements of a text. -/
def assembleStatements (sts : List Statement) : Except AsmError (List Instr) := do
  let a ← pass1 sts
  pass2 a.labels a.pending

/-- The assembler (R5, R143): the program of a text, or an error and no program. -/
def assemble (text : List Char) : Except AsmError (List Instr) :=
  match parseText text with
  | none => .error .syntaxError
  | some sts => assembleStatements sts

end Sys2Proof.Machine
end

