-- ==== Sys2Proof/Safety.lean ====
section
/-! DEFINITION. The terms claims use: the invariant of an instance, the states an instance can reach, and what "unchanged"
means for each kind of state. -/

namespace Sys2Proof.Machine

/-! ### The invariant -/

/-- What every state of an instance meets: the memory is in canonical form (R60), a program has at most 65,535
instructions (R40), MSET is false at a step boundary (R28), a run in progress has a program (R502) and CONT set (R27), the
exit code is ReturnValue (R410, R411), a faulted run has the stack depth its fault names (R401), and a Render event holds
3,840 bytes (R422). -/
structure StateInv (s : State) : Prop where
  memory : s.mem.wf
  programLength : ∀ p, s.prog = some p → p.length ≤ Config.maxProgramLen
  msetClear : s.mset = false
  runningHasProgram : s.run = .running → s.prog.isSome
  runningHasCont : s.run = .running → s.cont = true
  exitCode : ∀ c, s.run = .halted c → getReg s .ret = c
  overflowDepth : s.run = .faulted .stackOverflow → 254 ≤ s.sp.val
  underflowDepth : s.run = .faulted .stackUnderflow → s.sp.val ≤ 1
  frameLength : ∀ f, Event.render f ∈ s.history → f.length = Config.framebufferLen

/-- The states of an instance (R14, R500): constructed with some value of `zf_init`, then the host's operations and the
steps of the runs. -/
inductive Reachable (rt : ReservedTags) : State → Prop where
  | new (zfInit : Bool) (p : Option (List Instr)) (s : State) : hostNew rt zfInit p = .ok s → Reachable rt s
  | host (op : HostOp) (s t : State) : Reachable rt s → hostStep rt op s = .ok t → Reachable rt t
  | step (s t : State) : Reachable rt s → step s = .next t → Reachable rt t

/-! ### What a step runs -/

/-- In state `s` the run is in progress and the instruction at the pc is `i` (R32). -/
structure Fetches (s : State) (i : Instr) : Prop where
  running : s.run = .running
  fetched : ∃ p, s.prog = some p ∧ fetchAt p s.pc = some i

/-- What `step` makes of the state `t` an instruction's own rule gives (R31, R32, R402): nothing more after a runtime fault;
otherwise the pc is advanced unless the instruction set it, MSET is cleared, and without CONT the run halts with the byte
in ReturnValue. Written here in the claims' own terms. -/
def AfterStep (t u : State) : Prop :=
  match t.run with
  | .faulted _ => u = t
  | .ready | .running | .halted _ =>
    u = { t with
      pc := if t.mset then t.pc else t.pc + 1
      mset := false
      run := if t.cont then t.run else .halted (getReg t .ret) }

/-! ### Unchanged (the frames) -/

/-- The byte in stack slot `i`; none where the stack has no such slot (R34). -/
def slot (s : State) (i : Nat) : Option Byte := s.stk[i]?

/-- Every register but those of `ds` holds what it held. -/
def SameRegsExcept (ds : List Reg) (s t : State) : Prop := ∀ r, r ∉ ds → getReg t r = getReg s r

/-- Every stack slot but those of `is` holds what it held. -/
def SameSlotsExcept (is : List Nat) (s t : State) : Prop := ∀ i, i ∉ is → slot t i = slot s i

/-- SP and every stack slot hold what they held. -/
def SameStack (s t : State) : Prop := t.sp = s.sp ∧ SameSlotsExcept [] s t

/-- Every byte of data memory reads as it read. -/
def SameMem (s t : State) : Prop := ∀ a : Word16, readMem t a = readMem s a

/-- The program is what it was. -/
def SameProg (s t : State) : Prop := t.prog = s.prog

/-- The events of the run are what they were. -/
def SameHistory (s t : State) : Prop := t.history = s.history

/-- CONT and the run state are what they were. -/
def SameRun (s t : State) : Prop := t.cont = s.cont ∧ t.run = s.run

/-- The pc and MSET are what they were. -/
def SamePc (s t : State) : Prop := t.pc = s.pc ∧ t.mset = s.mset

/-- All state but the run state is what it was: what a runtime fault leaves (R402). -/
structure OnlyRunChanged (s t : State) : Prop where
  regs : SameRegsExcept [] s t
  zf : t.zf = s.zf
  stack : SameStack s t
  mem : SameMem s t
  prog : SameProg s t
  history : SameHistory s t
  pc : SamePc s t
  cont : t.cont = s.cont

/-- Two states that agree on everything but the stack slots at and above SP (R37). -/
structure SameBelowSp (s t : State) : Prop where
  regs : SameRegsExcept [] s t
  zf : t.zf = s.zf
  sp : t.sp = s.sp
  slots : ∀ i, i < s.sp.val → slot t i = slot s i
  mem : t.mem = s.mem
  prog : SameProg s t
  history : SameHistory s t
  pc : SamePc s t
  run : SameRun s t

/-- Two states that agree on everything but data memory and the port events (R61). -/
structure SameButMemory (s t : State) : Prop where
  regs : SameRegsExcept [] s t
  zf : t.zf = s.zf
  stack : SameStack s t
  prog : SameProg s t
  pc : SamePc s t
  run : SameRun s t

/-! ### The assembly text in claims -/

/-- The register operand `$r` of a text (R131). -/
def regText (r : Reg) : AsmOperand := .registerRef (regName r)

/-- The integer operand of a text with the value of a byte (R140). -/
def numText (b : Byte) : AsmOperand := .number b.toNat

/-- The operation `m ops;` alone, its mnemonic in small or capital letters (R132), assembles to the instruction `i`. -/
def AssemblesTo (m : Ident) (ops : List AsmOperand) (i : Instr) : Prop :=
  ∀ w : Ident, w.map upperChar = m → assembleStatements [.operation w ops] = .ok [i]

/-- The mnemonic, in small or capital letters, names the opcode (R132). -/
def Names (m : Ident) (o : Opcode) : Prop := ∀ w : Ident, w.map upperChar = m → opcodeOfMnemonic? w = some o

/-- How many operations a list of statements has (R133). -/
def countOps (sts : List Statement) : Nat :=
  (sts.filter fun st => match st with | .operation _ _ => true | .labelDecl _ => false).length

/-- The operations of a list of statements, in order. -/
def operations : List Statement → List (Ident × List AsmOperand)
  | [] => []
  | .operation m ops :: sts => (m, ops) :: operations sts
  | .labelDecl _ :: sts => operations sts

/-- The whole text is refused, whatever the error (R143, D17). -/
def AssemblyFails (sts : List Statement) : Prop := ∃ e, assembleStatements sts = .error e

/-- The kinds of a text operand (R132). -/
inductive TextKind where
  | register | immediate | label
  deriving DecidableEq, Repr

/-- The text operand kinds, row by row of R132's table. -/
def textKinds : Opcode → List TextKind
  | .add | .sub | .mov | .cmp => [.register, .register]
  | .put => [.register, .immediate]
  | .setret | .wait => [.immediate]
  | .putmem => [.immediate, .immediate, .immediate]
  | .push | .pop => [.register]
  | .exit | .nop | .ret | .render => []
  | .jump | .jz | .call => [.label]

/-- The operands a position of a kind admits (R136 to R140), before labels are looked up: one of the ten register names,
a number up to 255, a label. -/
def Admits : TextKind → AsmOperand → Prop
  | .register, .registerRef n => ∃ r, n = regName r
  | .immediate, .number v => v ≤ 255
  | .label, .labelRef _ => True
  | _, _ => False

end Sys2Proof.Machine
end

