-- ==== Sys2Proof/Certificates/Slice0/Obligations.lean ====
section
/-! DEFINITION. The statements for the provers, from the numbered rules of spec/. They speak of every state unless a premise
says otherwise. Where a statement rests on a decision of the spec (D<n>) or on an inference the spec marks as its own, its
docstring says so. -/

open Sys2Proof Sys2Proof.Machine

/-! ### Encoding -/

/-- R104, R20: words written out bit by bit from the patterns of the opcode map, one or more of every family, decode to the
instructions they stand for. -/
def Obligations.WordsOfEveryFamilyDecode : Prop :=
  decodeOne [] 0 [0b00000001, 0b00000001, 0b00000010] = .ok (.add .ax .bx, []) ∧
  decodeOne [] 0 [0b00000011, 0b00000010, 0b00000011] = .ok (.sub .bx .cx, []) ∧
  decodeOne [] 0 [0b00100010, 0b00010000, 0b00110000] = .ok (.mov .ret .fret, []) ∧
  decodeOne [] 0 [0b10000010, 0b00000001, 0b00000010] = .ok (.cmp .ax .bx, []) ∧
  decodeOne [] 0 [0b01000001, 0b00110000, 0b01000010, 0b00100011] = .ok (.push .fret, [0b01000010, 0b00100011]) ∧
  decodeOne [] 0 [0b10100001, 0b11111111, 0b11111110] = .ok (.jz 0xFF 0xFE, []) ∧
  decodeOne [] 0 [0b01000000, 0b10000000, 0b00000001, 0b11111111] = .ok (.putmem 0x80 0x01 0xFF, []) ∧
  decodeOne [] 0 [0b10000000] = .ok (.exit, [])

/-- R110, R100 (R112's inverse, one instruction): the encoding of every well-formed instruction decodes to it, at any
offset and with any bytes after it, whatever the parameter RESERVED_NOP_TAGS is. -/
def Obligations.DecodeOneInvertsEncode : Prop :=
  ∀ (rt : ReservedTags) (k : Nat) (i : Instr) (rest : List Byte),
    i.wf rt = true → decodeOne rt k (encode i ++ rest) = .ok (i, rest)

/-- R112 (an inference the spec marks as its own): on whole images the decoder is the inverse of the encoder in both
directions, and what it answers is a well-formed program. -/
def Obligations.DecoderAndEncoderAreInverse : Prop :=
  ∀ rt : ReservedTags,
    (∀ p : List Instr, Program.wf rt p = true → decodeImage rt (encodeProgram p) = .ok p) ∧
    (∀ (b : List Byte) (p : List Instr), decodeImage rt b = .ok p → encodeProgram p = b ∧ Program.wf rt p = true)

/-- R113(a) (decision D2): with the default empty map exactly the 239 tag values of R113 are illegal. -/
def Obligations.IllegalTagsAreTheListedOnes : Prop :=
  ∀ (t : Byte) (k : Nat) (ops : List Byte),
    decodeOne [] k (t :: ops) = .error (.illegalTag k t) ↔
      t.toNat = 0x00 ∨ t.toNat = 0x02 ∨ (0x04 ≤ t.toNat ∧ t.toNat ≤ 0x1F) ∨ (0x23 ≤ t.toNat ∧ t.toNat ≤ 0x3F) ∨
      (0x43 ≤ t.toNat ∧ t.toNat ≤ 0x7F) ∨ (0x83 ≤ t.toNat ∧ t.toNat ≤ 0x9F) ∨ (0xA2 ≤ t.toNat ∧ t.toNat ≤ 0xAF) ∨
      (0xB2 ≤ t.toNat ∧ t.toNat ≤ 0xEF) ∨ 0xF2 ≤ t.toNat

/-- R105, R110 (decision D2): in the formats with registers, a byte that is not one of the ten is refused at its own offset,
the first register first; immediates are never checked. -/
def Obligations.OnlyTheTenBytesSpellRegisters : Prop :=
  ∀ (rt : ReservedTags) (k : Nat) (a b : Byte) (rest : List Byte),
    let ten : List Byte := [0x01, 0x02, 0x03, 0x04, 0x10, 0x20, 0x21, 0x22, 0x23, 0x30]
    (∀ tag ∈ ([0x01, 0x03, 0x22, 0x82] : List Byte),
      (a ∉ ten → decodeOne rt k (tag :: a :: b :: rest) = .error (.illegalRegister (k + 1) a)) ∧
      (a ∈ ten → b ∉ ten → decodeOne rt k (tag :: a :: b :: rest) = .error (.illegalRegister (k + 2) b)) ∧
      (a ∈ ten → b ∈ ten → ∃ i, decodeOne rt k (tag :: a :: b :: rest) = .ok (i, rest) ∧ encode i = [tag, a, b])) ∧
    (∀ tag ∈ ([0x41, 0x42] : List Byte),
      (a ∉ ten → decodeOne rt k (tag :: a :: rest) = .error (.illegalRegister (k + 1) a)) ∧
      (a ∈ ten → ∃ i, decodeOne rt k (tag :: a :: rest) = .ok (i, rest) ∧ encode i = [tag, a])) ∧
    (a ∉ ten → decodeOne rt k (0x21 :: a :: b :: rest) = .error (.illegalRegister (k + 1) a)) ∧
    (a ∈ ten → ∃ i, decodeOne rt k (0x21 :: a :: b :: rest) = .ok (i, rest) ∧ encode i = [0x21, a, b])

/-- R110, R113(c), R114 (decisions D2, D8): an encoding cut off by the end of the image is Truncated at the offset of its
tag, whatever its operand bytes are, since the length check comes first; for a reserved tag by the arity the map gives. -/
def Obligations.CutOffEncodingIsTruncated : Prop :=
  ∀ (rt : ReservedTags) (k : Nat) (ops : List Byte),
    (∀ o : Opcode, ops.length < o.arity → decodeOne rt k (o.tag :: ops) = .error (.truncated k)) ∧
    (∀ (t : Byte) (n : Nat), rt.wf → rt.arity? t = some n → ops.length < n →
      decodeOne rt k (t :: ops) = .error (.truncated k))

/-- R111, R40 (decision D3): an image of more than 65,535 instructions is refused with their number. -/
def Obligations.LongImageIsRefused : Prop :=
  ∀ (rt : ReservedTags) (p : List Instr),
    p.all (Instr.wf rt) = true → 65535 < p.length → decodeImage rt (encodeProgram p) = .error (.programTooLong p.length)

/-! ### Reset and the invariant -/

/-- R42: every piece of state at construction, for both values of the OPEN parameter `zf_init`; `State.reset` is that
instance without a program (its ZF and its history are the model's choices, log entries 1 and 2). The initial program is any
that RESERVED_NOP_TAGS lets exist (R109, R322) and is not too long. -/
def Obligations.ConstructionLeavesTheListedValues : Prop :=
  ∀ (rt : ReservedTags) (zfInit : Bool) (p : List Instr), Program.wf rt p = true →
    ∃ s, hostNew rt zfInit (some p) = .ok s ∧ (∀ r, getReg s r = 0) ∧ s.zf = zfInit ∧ s.pc = 0 ∧ s.mset = false ∧
      s.cont = false ∧ s.sp = 0 ∧ (∀ i, i < 255 → slot s i = some 0) ∧ (∀ a, readMem s a = 0) ∧ s.prog = some p ∧
      s.run = .ready ∧
      State.reset = { s with prog := none, zf := Config.zfInit }

/-- The invariant holds at construction (R42), whatever `zf_init` is, and so at `State.reset`. -/
def Obligations.ConstructionMeetsInvariant : Prop :=
  (∀ zfInit, StateInv (State.fresh zfInit none)) ∧ StateInv State.reset

/-- Every step keeps the invariant, from every state that meets it (R28, R40, R60, R401, R410, R422). -/
def Obligations.StepKeepsInvariant : Prop :=
  ∀ s t, StateInv s → step s = .next t → StateInv t

/-- Every state of an instance meets the invariant: constructed with any `zf_init`, loaded, run and run again (R500). -/
def Obligations.EveryReachableStateMeetsInvariant : Prop :=
  ∀ (rt : ReservedTags) (s : State), Reachable rt s → StateInv s

/-! ### Registers and the ALU -/

/-- R202: ADD's encoding, text, result, zero flag and frame. -/
def Obligations.AddWritesSumAndZeroFlag : Prop :=
  ∀ d r : Reg,
    encode (.add d r) = [0x01, d.code, r.code] ∧ AssemblesTo ['A', 'D', 'D'] [regText d, regText r] (.add d r) ∧
    ∀ s, ∃ t, exec (.add d r) s = .next t ∧
      (getReg t d).toNat = ((getReg s d).toNat + (getReg s r).toNat) % 256 ∧
      (t.zf = true ↔ ((getReg s d).toNat + (getReg s r).toNat) % 256 = 0) ∧
      SameRegsExcept [d] s t ∧ SameStack s t ∧ SameMem s t ∧ SameProg s t ∧ SameHistory s t ∧ SameRun s t ∧ SamePc s t

/-- R203, with the operand order of decision D4 (the spec's own choice): SUB's encoding, text, result, zero flag and frame;
ZF says that the operands were equal. -/
def Obligations.SubWritesDifferenceAndZeroFlag : Prop :=
  ∀ d r : Reg,
    encode (.sub d r) = [0x03, d.code, r.code] ∧ AssemblesTo ['S', 'U', 'B'] [regText d, regText r] (.sub d r) ∧
    ∀ s, ∃ t, exec (.sub d r) s = .next t ∧
      (getReg t d).toNat = ((getReg s d).toNat + 256 - (getReg s r).toNat) % 256 ∧
      (t.zf = true ↔ getReg s d = getReg s r) ∧
      SameRegsExcept [d] s t ∧ SameStack s t ∧ SameMem s t ∧ SameProg s t ∧ SameHistory s t ∧ SameRun s t ∧ SamePc s t

/-- R240: CMP's encoding, text, zero flag and frame; no register is written. -/
def Obligations.CmpWritesOnlyZeroFlag : Prop :=
  ∀ a b : Reg,
    encode (.cmp a b) = [0x82, a.code, b.code] ∧ AssemblesTo ['C', 'M', 'P'] [regText a, regText b] (.cmp a b) ∧
    ∀ s, ∃ t, exec (.cmp a b) s = .next t ∧
      ((getReg s b).toNat ≤ (getReg s a).toNat → (t.zf = true ↔ (getReg s a).toNat - (getReg s b).toNat = 0)) ∧
      ((getReg s a).toNat < (getReg s b).toNat → t.zf = false) ∧
      SameRegsExcept [] s t ∧ SameStack s t ∧ SameMem s t ∧ SameProg s t ∧ SameHistory s t ∧ SameRun s t ∧ SamePc s t

/-! ### Moves -/

/-- R220: SETRET's encoding, text, result and frame; no flag. -/
def Obligations.SetretWritesReturnValue : Prop :=
  ∀ i : Byte,
    encode (.setret i) = [0x20, i] ∧ AssemblesTo ['S', 'E', 'T', 'R', 'E', 'T'] [numText i] (.setret i) ∧
    ∀ s, ∃ t, exec (.setret i) s = .next t ∧ getReg t .ret = i ∧ t.zf = s.zf ∧
      SameRegsExcept [.ret] s t ∧ SameStack s t ∧ SameMem s t ∧ SameProg s t ∧ SameHistory s t ∧ SameRun s t ∧ SamePc s t

/-- R221: PUT's encoding, text, result and frame; no flag, even for 0. -/
def Obligations.PutWritesImmediate : Prop :=
  ∀ (d : Reg) (i : Byte),
    encode (.put d i) = [0x21, d.code, i] ∧ AssemblesTo ['P', 'U', 'T'] [regText d, numText i] (.put d i) ∧
    ∀ s, ∃ t, exec (.put d i) s = .next t ∧ getReg t d = i ∧ t.zf = s.zf ∧
      SameRegsExcept [d] s t ∧ SameStack s t ∧ SameMem s t ∧ SameProg s t ∧ SameHistory s t ∧ SameRun s t ∧ SamePc s t

/-- R222: MOV's encoding, text, result and frame; no flag. -/
def Obligations.MovCopiesRegister : Prop :=
  ∀ d r : Reg,
    encode (.mov d r) = [0x22, d.code, r.code] ∧ AssemblesTo ['M', 'O', 'V'] [regText d, regText r] (.mov d r) ∧
    ∀ s, ∃ t, exec (.mov d r) s = .next t ∧ getReg t d = getReg s r ∧ t.zf = s.zf ∧
      SameRegsExcept [d] s t ∧ SameStack s t ∧ SameMem s t ∧ SameProg s t ∧ SameHistory s t ∧ SameRun s t ∧ SamePc s t

/-! ### Stack -/

/-- R260: PUSH's encoding, text, effect and frame with a free slot, and its fault on a full stack, which leaves everything
else as it was. -/
def Obligations.PushStoresOrOverflows : Prop :=
  ∀ r : Reg,
    encode (.push r) = [0x41, r.code] ∧ AssemblesTo ['P', 'U', 'S', 'H'] [regText r] (.push r) ∧
    ∀ s,
      (s.sp.val < 255 → ∃ t, exec (.push r) s = .next t ∧ slot t s.sp.val = some (getReg s r) ∧
        t.sp.val = s.sp.val + 1 ∧ t.zf = s.zf ∧ SameRegsExcept [] s t ∧ SameSlotsExcept [s.sp.val] s t ∧ SameMem s t ∧
        SameProg s t ∧ SameHistory s t ∧ SameRun s t ∧ SamePc s t) ∧
      (s.sp.val = 255 → ∃ t, exec (.push r) s = .next t ∧ t.run = .faulted .stackOverflow ∧ OnlyRunChanged s t)

/-- R261: POP's encoding, text, effect and frame with a byte held, and its fault on an empty stack, which leaves everything
else as it was. No slot is cleared. -/
def Obligations.PopLoadsOrUnderflows : Prop :=
  ∀ r : Reg,
    encode (.pop r) = [0x42, r.code] ∧ AssemblesTo ['P', 'O', 'P'] [regText r] (.pop r) ∧
    ∀ s,
      (0 < s.sp.val → ∃ t, exec (.pop r) s = .next t ∧ slot s (s.sp.val - 1) = some (getReg t r) ∧
        t.sp.val = s.sp.val - 1 ∧ t.zf = s.zf ∧ SameRegsExcept [r] s t ∧ SameSlotsExcept [] s t ∧ SameMem s t ∧
        SameProg s t ∧ SameHistory s t ∧ SameRun s t ∧ SamePc s t) ∧
      (s.sp.val = 0 → ∃ t, exec (.pop r) s = .next t ∧ t.run = .faulted .stackUnderflow ∧ OnlyRunChanged s t)

/-- R262 (an inference the spec marks as its own): PUSH then POP of a register leaves it and SP as they were. -/
def Obligations.PushThenPopRestores : Prop :=
  ∀ (r : Reg) (s : State), s.sp.val < 255 →
    ∃ t u, exec (.push r) s = .next t ∧ exec (.pop r) t = .next u ∧ u.sp = s.sp ∧ SameRegsExcept [] s u ∧
      SameSlotsExcept [s.sp.val] s u ∧ u.zf = s.zf ∧ SameMem s u

/-- R35, R34 (§8): from an empty stack any 255 pushes succeed and the 256th does not; the bytes lie in the slots in the
order of the pushes. -/
def Obligations.EmptyStackTakesExactly255Pushes : Prop :=
  ∀ (vs : List Byte) (s : State), s.sp = 0 →
    (vs.length ≤ 255 → ∃ t, vs.foldlM (fun u v => stackPush v u) s = some t ∧ t.sp.val = vs.length ∧
      ∀ i, i < vs.length → slot t i = vs[i]?) ∧
    (255 < vs.length → vs.foldlM (fun u v => stackPush v u) s = none)

/-! ### Control transfer -/

/-- R280: JUMP's encoding, text (a label, as the index's high and low byte), effect and frame. -/
def Obligations.JumpSetsPc : Prop :=
  ∀ h l : Byte,
    encode (.jump h l) = [0xA0, h, l] ∧ Names ['J', 'U', 'M', 'P'] .jump ∧
    (∀ (labels : Labels) (n : Ident), List.lookup n labels = some (256 * h.toNat + l.toNat) →
      resolveOp labels .jump [.labelRef n] = .ok (.jump h l)) ∧
    ∀ s, ∃ t, exec (.jump h l) s = .next t ∧ t.pc.toNat = 256 * h.toNat + l.toNat ∧ t.mset = true ∧ t.zf = s.zf ∧
      SameRegsExcept [] s t ∧ SameStack s t ∧ SameMem s t ∧ SameProg s t ∧ SameHistory s t ∧ SameRun s t

/-- R281: JZ's encoding, text, effect and frame, taken and not taken; ZF keeps its value. -/
def Obligations.JzSetsPcOnlyWhenZero : Prop :=
  ∀ h l : Byte,
    encode (.jz h l) = [0xA1, h, l] ∧ Names ['J', 'Z'] .jz ∧
    (∀ (labels : Labels) (n : Ident), List.lookup n labels = some (256 * h.toNat + l.toNat) →
      resolveOp labels .jz [.labelRef n] = .ok (.jz h l)) ∧
    ∀ s, ∃ t, exec (.jz h l) s = .next t ∧
      (s.zf = true → t.pc.toNat = 256 * h.toNat + l.toNat ∧ t.mset = true) ∧ (s.zf = false → SamePc s t) ∧
      t.zf = s.zf ∧ SameRegsExcept [] s t ∧ SameStack s t ∧ SameMem s t ∧ SameProg s t ∧ SameHistory s t ∧ SameRun s t

/-- R282 (its precise fault by decision D10): CALL's encoding, text, effect and frame with two free slots: the low byte of
pc + 1 in the lower slot, the high byte above it. With fewer, StackOverflow and nothing else. -/
def Obligations.CallPushesReturnAddressOrOverflows : Prop :=
  ∀ h l : Byte,
    encode (.call h l) = [0xB0, h, l] ∧ Names ['C', 'A', 'L', 'L'] .call ∧
    (∀ (labels : Labels) (n : Ident), List.lookup n labels = some (256 * h.toNat + l.toNat) →
      resolveOp labels .call [.labelRef n] = .ok (.call h l)) ∧
    ∀ s : State,
      (s.sp.val < 254 → s.pc.toNat < 65535 → ∃ (t : State) (lo hi : Byte), exec (.call h l) s = .next t ∧
        slot t s.sp.val = some lo ∧ slot t (s.sp.val + 1) = some hi ∧ 256 * hi.toNat + lo.toNat = s.pc.toNat + 1 ∧
        t.sp.val = s.sp.val + 2 ∧ t.pc.toNat = 256 * h.toNat + l.toNat ∧ t.mset = true ∧ t.zf = s.zf ∧
        SameRegsExcept [] s t ∧ SameSlotsExcept [s.sp.val, s.sp.val + 1] s t ∧ SameMem s t ∧ SameProg s t ∧
        SameHistory s t ∧ SameRun s t) ∧
      (254 ≤ s.sp.val → ∃ t, exec (.call h l) s = .next t ∧ t.run = .faulted .stackOverflow ∧ OnlyRunChanged s t)

/-- R283 (its precise fault by decision D10): RETURN's encoding, text, effect and frame with two bytes held, whoever pushed
them; with fewer, StackUnderflow and nothing else. -/
def Obligations.ReturnPopsTargetOrUnderflows : Prop :=
  encode .ret = [0xB1] ∧ AssemblesTo ['R', 'E', 'T', 'U', 'R', 'N'] [] .ret ∧
  ∀ s : State,
    (2 ≤ s.sp.val → ∃ (t : State) (lo hi : Byte), exec .ret s = .next t ∧
      slot s (s.sp.val - 1) = some hi ∧ slot s (s.sp.val - 2) = some lo ∧ t.pc.toNat = 256 * hi.toNat + lo.toNat ∧
      t.sp.val = s.sp.val - 2 ∧ t.mset = true ∧ t.zf = s.zf ∧ SameRegsExcept [] s t ∧ SameSlotsExcept [] s t ∧
      SameMem s t ∧ SameProg s t ∧ SameHistory s t ∧ SameRun s t) ∧
    (s.sp.val ≤ 1 → ∃ t, exec .ret s = .next t ∧ t.run = .faulted .stackUnderflow ∧ OnlyRunChanged s t)

/-- R284: a RETURN resumes at the instruction after the CALL, whatever ran in between, provided SP and the two slots of the
return address are as the CALL left them. -/
def Obligations.ReturnResumesAfterCall : Prop :=
  ∀ (h l : Byte) (s : State), s.sp.val < 254 →
    ∃ t, exec (.call h l) s = .next t ∧
      ∀ u : State, u.sp = t.sp → (∀ i, i = s.sp.val ∨ i = s.sp.val + 1 → slot u i = slot t i) →
        ∃ v, exec .ret u = .next v ∧ v.pc = s.pc + 1 ∧ v.sp = s.sp

/-! ### Memory, render, wait -/

/-- R63, R60, and the model's canonical form: a byte written to an address reads back there and every other address reads
as before, over the whole space; and two memories of the model that read the same everywhere are equal. -/
def Obligations.MemoryIsAnArrayOfBytes : Prop :=
  (∀ (s : State) (a b : Word16) (v : Byte), s.mem.wf →
    (memWrite a v s).mem.wf ∧ readMem (memWrite a v s) b = if b = a then v else readMem s b) ∧
  (∀ m n : Memory, m.wf → n.wf → (∀ a : Word16, m.read a.toNat = n.read a.toNat) → m = n)

/-- R300, with the operand kinds of decision D5 (the spec's own choice): PUTMEM's encoding, text, effect and frame: the
address stored to is `(h << 8) | l`, and every other byte is unchanged. -/
def Obligations.PutmemWritesOneByte : Prop :=
  ∀ h l v : Byte,
    encode (.putmem h l v) = [0x40, h, l, v] ∧
    AssemblesTo ['P', 'U', 'T', 'M', 'E', 'M'] [numText h, numText l, numText v] (.putmem h l v) ∧
    ∀ s, ∃ t, exec (.putmem h l v) s = .next t ∧
      (s.mem.wf → ∀ a : Word16, a.toNat = 256 * h.toNat + l.toNat → readMem t a = v) ∧
      (∀ a : Word16, a.toNat ≠ 256 * h.toNat + l.toNat → readMem t a = readMem s a) ∧
      t.zf = s.zf ∧ SameRegsExcept [] s t ∧ SameStack s t ∧ SameProg s t ∧ SameHistory s t ∧ SameRun s t ∧ SamePc s t

/-- R301: RENDER's encoding, text, effect and frame: one event with the 3,840 bytes at 0x8000 and up, as memory holds them
at this step; no state of the core changes. That the step always ends rests on the sink's return, which R301 makes the end of
the step and which R420 and decision D26 give a model (log entry 13, DESIGN CHOICE; I8). -/
def Obligations.RenderEmitsFramebuffer : Prop :=
  encode .render = [0xF0] ∧ AssemblesTo ['R', 'E', 'N', 'D', 'E', 'R'] [] .render ∧
  ∀ s, ∃ t f, exec .render s = .next t ∧ t.history = s.history ++ [.render f] ∧ f.length = 3840 ∧
    (∀ j, j < 3840 → f[j]? = some (readMem s (0x8000 + BitVec.ofNat 16 j))) ∧
    t.zf = s.zf ∧ SameRegsExcept [] s t ∧ SameStack s t ∧ SameMem s t ∧ SameProg s t ∧ SameRun s t ∧ SamePc s t

/-- R302, with the operand kind of decision D6 (the spec's own choice): WAIT's encoding, text, event and frame. That the
step always ends is the model without time of decision D24 (log entry 13, DESIGN CHOICE). -/
def Obligations.WaitEmitsSeconds : Prop :=
  ∀ i : Byte,
    encode (.wait i) = [0xF1, i] ∧ AssemblesTo ['W', 'A', 'I', 'T'] [numText i] (.wait i) ∧
    ∀ s, ∃ t, exec (.wait i) s = .next t ∧ t.history = s.history ++ [.wait i] ∧
      t.zf = s.zf ∧ SameRegsExcept [] s t ∧ SameStack s t ∧ SameMem s t ∧ SameProg s t ∧ SameRun s t ∧ SamePc s t

/-- R67 (in part an inference the spec marks as its own): the pixels tile the framebuffer exactly once, and in a RENDER's
bytes the red, green and blue byte of pixel (i, j) stand at offset i*96 + j*3. -/
def Obligations.PixelsTileTheFramebuffer : Prop :=
  (∀ n, n < 3840 → ∃ (i : Fin 40) (j : Fin 32) (k : Fin 3),
    (pixelBase i j).toNat + k.val = 0x8000 + n ∧
    ∀ (i' : Fin 40) (j' : Fin 32) (k' : Fin 3), (pixelBase i' j').toNat + k'.val = 0x8000 + n → i' = i ∧ j' = j ∧ k' = k) ∧
  ∀ (s t : State) (f : List Byte), exec .render s = .next t → t.history = s.history ++ [.render f] →
    ∀ (i : Fin 40) (j : Fin 32) (k : Fin 3),
      f[i.val * 96 + j.val * 3 + k.val]? = some (readMem s (pixelBase i j + BitVec.ofNat 16 k.val))

/-! ### Exit, no-op, reserved -/

/-- R320: EXIT's encoding, text, effect and frame: CONT is cleared and no register is written; in a run the step then halts
with the byte in ReturnValue, the pc one past the EXIT. -/
def Obligations.ExitClearsContAndHalts : Prop :=
  encode .exit = [0x80] ∧ AssemblesTo ['E', 'X', 'I', 'T'] [] .exit ∧
  ∀ s, ∃ t, exec .exit s = .next t ∧ t.cont = false ∧ t.run = s.run ∧ t.zf = s.zf ∧ SameRegsExcept [] s t ∧
    SameStack s t ∧ SameMem s t ∧ SameProg s t ∧ SameHistory s t ∧ SamePc s t ∧
    (StateInv s → Fetches s .exit → ∃ u, step s = .next u ∧ u.run = .halted (getReg s .ret) ∧ u.pc.toNat = s.pc.toNat + 1 ∧
      u.zf = s.zf ∧ SameRegsExcept [] s u ∧ SameStack s u ∧ SameMem s u ∧ SameProg s u ∧ SameHistory s u)

/-- R321, R322 (NOP's empty action is an inference the spec marks as its own; the reserved no-op is decision D8): both leave
the whole state as it is, and in a run their step only moves the pc on by one. -/
def Obligations.NopAndReservedOnlyAdvance : Prop :=
  encode .nop = [0x81] ∧ AssemblesTo ['N', 'O', 'P'] [] .nop ∧
  ∀ (s : State) (tag : Byte) (ops : List Byte),
    exec .nop s = .next s ∧ exec (.reserved tag ops) s = .next s ∧
    (StateInv s → Fetches s .nop ∨ Fetches s (.reserved tag ops) →
      ∃ u, step s = .next u ∧ u.pc.toNat = s.pc.toNat + 1 ∧ u = { s with pc := u.pc })

/-! ### The instruction cycle -/

/-- R32, R111: when an image's bytes at the place of the pc's instruction are the encoding of a well-formed `i`, and the
decoded image is the program, the step runs `i`. -/
def Obligations.StepRunsTheEncodedInstruction : Prop :=
  ∀ (rt : ReservedTags) (before after : List Instr) (i : Instr) (p : List Instr) (s t : State),
    Program.wf rt (before ++ i :: after) = true →
    decodeImage rt (encodeProgram before ++ encode i ++ encodeProgram after) = .ok p →
    s.prog = some p → s.run = .running → s.pc.toNat = before.length → exec i s = .next t →
      ∃ u, step s = .next u ∧ AfterStep t u

/-- R32: the whole instruction cycle of a run: at or beyond the end of the program the run halts with 255 in ReturnValue
and nothing else written but the run state; otherwise the instruction at the pc runs, and after it, unless it faulted, the
end of the step and the loop test. That every step ends, also RENDER's and WAIT's, is log entry 13 (D24, D26, I8). -/
def Obligations.InstructionCycleOfARun : Prop :=
  ∀ (s : State) (p : List Instr), s.run = .running → s.prog = some p →
    (p.length ≤ s.pc.toNat → ∃ u, step s = .next u ∧ u.run = .halted 255 ∧ getReg u .ret = 255 ∧ u.zf = s.zf ∧
      u.cont = s.cont ∧ SameRegsExcept [.ret] s u ∧ SameStack s u ∧ SameMem s u ∧ SameProg s u ∧ SameHistory s u ∧
      SamePc s u) ∧
    (s.pc.toNat < p.length → ∃ i t u, p[s.pc.toNat]? = some i ∧ exec i s = .next t ∧ step s = .next u ∧ AfterStep t u)

/-- R31, R33 (no wrap by decision D3): the end of a step that does not fault moves the pc on by one, as a number, unless the
instruction set it, and clears MSET; a step that faults does neither. -/
def Obligations.EndOfStepAdvancesUnlessSet : Prop :=
  ∀ (s t : State) (i : Instr), StateInv s → Fetches s i → exec i s = .next t →
    ((∀ k, t.run ≠ .faulted k) → ∃ u, step s = .next u ∧ u.mset = false ∧
      (t.mset = false → u.pc.toNat = s.pc.toNat + 1) ∧ (t.mset = true → u.pc = t.pc)) ∧
    (∀ k, t.run = .faulted k → step s = .next t ∧ t.pc = s.pc)

/-- The model's rendering of R32 and R401 (log entry 4): outside a run, and only there, `step` answers noRunInProgress; and
every state in a run that meets the invariant (so that it has a program, R502) has a next state, given that the sink and the
delay return (log entry 13). -/
def Obligations.NoStepOutsideARun : Prop :=
  (∀ s, s.run ≠ .running ↔ step s = .fault .noRunInProgress) ∧
  ∀ s, StateInv s → s.run = .running → ∃ t, step s = .next t

/-! ### Runtime faults -/

/-- R401, R402 (kinds D11, precision D10): a step of a run faults exactly in the four cases of R401's table, with its kind,
and a step that faults changes nothing but the run state. That every step ends is log entry 13 (D24, D26, I8). -/
def Obligations.FaultsExactlyInTheListedCases : Prop :=
  ∀ (s : State) (i : Instr), Fetches s i → ∃ t, step s = .next t ∧
    (t.run = .faulted .stackOverflow ↔
      ((∃ r, i = .push r) ∧ s.sp.val = 255) ∨ ((∃ h l, i = .call h l) ∧ 254 ≤ s.sp.val)) ∧
    (t.run = .faulted .stackUnderflow ↔ ((∃ r, i = .pop r) ∧ s.sp.val = 0) ∨ (i = .ret ∧ s.sp.val ≤ 1)) ∧
    (∀ k, t.run = .faulted k → OnlyRunChanged s t)

/-! ### Whole-machine rules -/

/-- R24: only ADD, SUB and CMP change ZF; neither any other instruction, nor the implicit halt, nor a fault does. -/
def Obligations.OnlyAluInstructionsChangeZf : Prop :=
  ∀ s t : State, step s = .next t → t.zf ≠ s.zf →
    ∃ a b, Fetches s (.add a b) ∨ Fetches s (.sub a b) ∨ Fetches s (.cmp a b)

/-- R23 (an inference the spec marks as its own): a step writes at most one register. -/
def Obligations.AtMostOneRegisterPerStep : Prop :=
  ∀ s t : State, step s = .next t → ∃ r, SameRegsExcept [r] s t

/-- R34: only PUSH, POP, CALL and RETURN change SP or a stack slot, and no step of theirs reaches data memory. -/
def Obligations.OnlyStackInstructionsTouchTheStack : Prop :=
  ∀ (s t : State), step s = .next t → ¬ SameStack s t →
    SameMem s t ∧ ((∃ r, Fetches s (.push r) ∨ Fetches s (.pop r)) ∨ (∃ h l, Fetches s (.call h l)) ∨ Fetches s .ret)

/-- R61, R63: only PUTMEM changes data memory, and only the one byte at its address. -/
def Obligations.OnlyPutmemChangesMemory : Prop :=
  ∀ (s t : State) (a : Word16), step s = .next t → readMem t a ≠ readMem s a →
    ∃ h l v, Fetches s (.putmem h l v) ∧ a.toNat = 256 * h.toNat + l.toNat

/-- R40, R75: no step changes the program. -/
def Obligations.NoStepChangesTheProgram : Prop :=
  ∀ s t : State, step s = .next t → t.prog = s.prog

/-- R27: in a run, CONT is cleared by EXIT and by nothing else, and no step sets it. -/
def Obligations.OnlyExitClearsCont : Prop :=
  ∀ s t : State, step s = .next t → (t.cont = s.cont ∨ t.cont = false ∧ Fetches s .exit) ∧
    (Fetches s .exit → t.cont = false)

/-- R422, R301, R302: a step adds at most one event, at the end of the history, and only for RENDER and WAIT. -/
def Obligations.OnlyRenderAndWaitAddEvents : Prop :=
  ∀ s t : State, step s = .next t → t.history = s.history ∨
    (∃ f, Fetches s .render ∧ t.history = s.history ++ [.render f]) ∨
    (∃ i, Fetches s (.wait i) ∧ t.history = s.history ++ [.wait i])

/-- R37 (an inference the spec marks as its own): the stack slots at and above SP are never visible. Two states that differ
only there take steps to two states that differ only there. -/
def Obligations.SlotsAboveSpAreInvisible : Prop :=
  ∀ s s' t : State, SameBelowSp s s' → step s = .next t → ∃ t', step s' = .next t' ∧ SameBelowSp t t'

/-- R61, R39: data memory is write-only to programs. Two states that differ only in data memory and in the events already
sent take steps to two states that differ only there. For a RENDER this says that memory does not reach the core through the
sink either: whatever frame it is given, the sink returns and nothing it does comes back (R420, decision D26, log entry 13,
DESIGN CHOICE; I8). -/
def Obligations.DataMemoryNeverReachesTheCore : Prop :=
  ∀ s s' t : State, SameButMemory s s' → step s = .next t → ∃ t', step s' = .next t' ∧ SameButMemory t t'

/-! ### The host -/

/-- R501: `load_program` and `unload_program` change only the program reference, for every program that can be loaded
(R109, R322, R500). -/
def Obligations.LoadAndUnloadChangeOnlyTheProgram : Prop :=
  ∀ (rt : ReservedTags) (s : State), s.run ≠ .running →
    (∀ p : List Instr, Program.wf rt p = true →
      ∃ t, hostStep rt (.loadProgram p) s = .ok t ∧ t = { s with prog := some p }) ∧
    (∀ (b : List Byte) (p : List Instr), decodeImage rt b = .ok p →
      ∃ t, hostStep rt (.loadImage b) s = .ok t ∧ t = { s with prog := some p }) ∧
    (∃ t, hostStep rt .unloadProgram s = .ok t ∧ t = { s with prog := none })

/-- R500, R111, R121 (decisions D2, D3): an image is loaded exactly when the decoder accepts it, as the decoded program; a
refused image, and a program that is too long, load nothing. -/
def Obligations.ImageLoadsExactlyWhenItDecodes : Prop :=
  ∀ (rt : ReservedTags) (s : State), s.run ≠ .running →
    (∀ (b : List Byte) (t : State), hostStep rt (.loadImage b) s = .ok t ↔
      ∃ p, decodeImage rt b = .ok p ∧ t = { s with prog := some p }) ∧
    (∀ (b : List Byte) (r : LoadRefusal), hostStep rt (.loadImage b) s = .error (.load r) ↔ decodeImage rt b = .error r) ∧
    (∀ p : List Instr, 65535 < p.length → hostStep rt (.loadProgram p) s = .error (.load (.programTooLong p.length)))

/-- R503, R505, R68 (some values by decisions D20, D21): what the reset of `execute()` sets and what it keeps; R502
(decision D19): without a program it is refused. -/
def Obligations.ExecuteResetsAndKeeps : Prop :=
  ∀ (rt : ReservedTags) (s : State), s.run ≠ .running →
    (s.prog = none → hostStep rt .execute s = .error .noProgram) ∧
    (s.prog ≠ none → ∃ t, hostStep rt .execute s = .ok t ∧ t.pc = 0 ∧ t.sp = 0 ∧ (∀ i, i < 255 → slot t i = some 0) ∧
      t.mset = false ∧ t.cont = true ∧ t.history = [] ∧ t.run = .running ∧
      SameRegsExcept [] s t ∧ t.zf = s.zf ∧ SameMem s t ∧ SameProg s t)

/-- R410, R401, R412, R503 (D12 for the fault's pc): what `execute()` gives back is the byte in ReturnValue, or the fault
and the pc it left, with the state the run left. -/
def Obligations.ExecuteReportsHowTheRunEnded : Prop :=
  ∀ (fuel : Nat) (s t : State) (r : RunResult), StateInv s → execute fuel s = .ok (r, t) →
    StateInv t ∧ (∀ c, r = .exited c → t.run = .halted c ∧ getReg t .ret = c) ∧
    (∀ k pc, r = .faulted k pc → t.run = .faulted k ∧ t.pc = pc) ∧ (r = .stillRunning → t.run = .running)

/-- R413: fuel is only the model's: once a run has ended, more fuel gives the same result and the same state. -/
def Obligations.MoreFuelGivesTheSameEnd : Prop :=
  ∀ (n m : Nat) (s t : State) (r : RunResult), execute n s = .ok (r, t) → r ≠ .stillRunning → n ≤ m →
    execute m s = .ok (r, t)

/-! ### The assembler -/

/-- R142, R132: every operation becomes exactly one instruction, in order, of the opcode its mnemonic names. -/
def Obligations.EveryOperationIsOneInstruction : Prop :=
  ∀ (sts : List Statement) (p : List Instr), assembleStatements sts = .ok p →
    p.length = countOps sts ∧ p.length ≤ 65535 ∧
    ∀ (k : Nat) (m : Ident) (ops : List AsmOperand), (operations sts)[k]? = some (m, ops) →
      ∃ i o, p[k]? = some i ∧ i.opcode? = some o ∧ opcodeOfMnemonic? m = some o

/-- R144, R134, R136, R145: a label's index is the number of operations before its declaration, and a JUMP, JZ or CALL to
it gets that index as high and low byte, wherever in the text it stands. -/
def Obligations.LabelsResolveForwardAndBackward : Prop :=
  ∀ (before after : List Statement) (n : Ident) (p : List Instr),
    assembleStatements (before ++ .labelDecl n :: after) = .ok p →
    ∀ (k : Nat) (m : Ident), (operations (before ++ .labelDecl n :: after))[k]? = some (m, [.labelRef n]) →
      ∃ hi lo : Byte, 256 * hi.toNat + lo.toNat = countOps before ∧
        (p[k]? = some (.jump hi lo) ∨ p[k]? = some (.jz hi lo) ∨ p[k]? = some (.call hi lo))

/-- R135 (the error by decision D16): a text that declares a label twice is refused. -/
def Obligations.DuplicateLabelIsRefused : Prop :=
  ∀ (a b c : List Statement) (n : Ident), AssemblyFails (a ++ .labelDecl n :: (b ++ .labelDecl n :: c))

/-- R143, R133 (§8): a text with an unknown mnemonic, or with an operand count its mnemonic does not take, is refused. -/
def Obligations.UnknownMnemonicOrArityIsRefused : Prop :=
  ∀ (sts : List Statement) (m : Ident) (ops : List AsmOperand), Statement.operation m ops ∈ sts →
    (∀ o, opcodeOfMnemonic? m = some o → ops.length ≠ (textKinds o).length) → AssemblyFails sts

/-- R137 to R140, R136 (kinds by decisions D15, D18): a text with an operand its position does not admit is refused, and so
is a reference to a label the text does not declare. -/
def Obligations.InadmissibleOperandIsRefused : Prop :=
  ∀ (sts : List Statement) (m : Ident) (ops : List AsmOperand) (o : Opcode) (j : Nat) (k : TextKind) (x : AsmOperand),
    Statement.operation m ops ∈ sts → opcodeOfMnemonic? m = some o → (textKinds o)[j]? = some k → ops[j]? = some x →
    ¬ Admits k x ∨ (∃ n, x = .labelRef n ∧ Statement.labelDecl n ∉ sts) → AssemblyFails sts

/-- R141 (decision D3): a text of more than 65,535 operations is refused. -/
def Obligations.LongTextIsRefused : Prop :=
  ∀ sts : List Statement, 65535 < countOps sts → AssemblyFails sts

/-- R142, R112, R143: what the assembler makes of a text is a program of defined instructions that the encoder writes and
the decoder, with any RESERVED_NOP_TAGS, reads back. -/
def Obligations.AssembledTextEncodesAndDecodesBack : Prop :=
  ∀ (text : List Char) (p : List Instr), assemble text = .ok p →
    ∀ rt : ReservedTags, Program.wf rt p = true ∧ decodeImage rt (encodeProgram p) = .ok p

/-! ### The reserved no-ops -/

/-- R322, R109, R114 (decision D8): a reserved no-op exists only for a tag of RESERVED_NOP_TAGS, with the map's arity. A
program is accepted, by `new` and by `load_program`, exactly when all its instructions exist and it is not too long (the
refusal's name, log entry 11, and that a `new` whose program is refused leaves no instance at all, log entry 18, are the
model's choices, each a DESIGN CHOICE); so the program of every state an instance can reach is well-formed, a
reserved no-op that a run fetches is one of the map's, and with the default empty map none is ever fetched. -/
def Obligations.ReservedNoOpsExistOnlyInTheMap : Prop :=
  ∀ rt : ReservedTags,
    (∀ (p : List Instr) (s t : State), s.run ≠ .running →
      (hostStep rt (.loadProgram p) s = .ok t ↔ Program.wf rt p = true ∧ t = { s with prog := some p })) ∧
    (∀ (p : List Instr) (zfInit : Bool) (t : State),
      hostNew rt zfInit (some p) = .ok t ↔ Program.wf rt p = true ∧ t = State.fresh zfInit (some p)) ∧
    (∀ s, Reachable rt s → ∀ p, s.prog = some p → Program.wf rt p = true) ∧
    (∀ s tag ops, Reachable rt s → Fetches s (.reserved tag ops) →
      Opcode.ofTag? tag = none ∧ rt.arity? tag = some ops.length ∧ rt ≠ [])
end

