-- ==== Sys2Proof/Laws/Encoding.lean ====
section
/-! SUPPORT. The bytes of 16-bit numbers (R9, R106), and the tables of registers and tags read both ways (R20, R104). -/

namespace Sys2Proof

theorem addrOf_toNat (h l : Byte) : (addrOf h l).toNat = 256 * h.toNat + l.toNat := by
  have hh := h.isLt
  have hl := l.isLt
  have or_add : h.toNat <<< 8 + l.toNat = h.toNat <<< 8 ||| l.toNat := Nat.shiftLeft_add_eq_or_of_lt hl _
  have h1 : h.toNat % 2 ^ 16 = h.toNat := Nat.mod_eq_of_lt (by omega)
  have l1 : l.toNat % 2 ^ 16 = l.toNat := Nat.mod_eq_of_lt (by omega)
  have s1 : h.toNat <<< 8 = 256 * h.toNat := by rw [Nat.shiftLeft_eq]; omega
  have s2 : h.toNat <<< 8 % 2 ^ 16 = h.toNat <<< 8 := Nat.mod_eq_of_lt (by omega)
  simp only [addrOf, BitVec.toNat_or, BitVec.toNat_shiftLeft, BitVec.toNat_setWidth, h1, l1, s2]
  omega

theorem hiByte_toNat (v : Word16) : (hiByte v).toNat = v.toNat / 256 := by
  simp only [hiByte, BitVec.toNat_setWidth, BitVec.toNat_ushiftRight, Nat.shiftRight_eq_div_pow]
  have := v.isLt
  omega

theorem loByte_toNat (v : Word16) : (loByte v).toNat = v.toNat % 256 := by
  simp only [loByte, BitVec.toNat_setWidth, BitVec.toNat_and]
  have : v.toNat &&& BitVec.toNat (0xFF : Word16) = v.toNat % 2 ^ 8 := Nat.and_two_pow_sub_one_eq_mod v.toNat 8
  rw [this]
  omega

@[simp] theorem addrOf_hiByte_loByte (v : Word16) : addrOf (hiByte v) (loByte v) = v := by
  apply BitVec.eq_of_toNat_eq
  rw [addrOf_toNat, hiByte_toNat, loByte_toNat]
  omega

@[simp] theorem hiByte_addrOf (h l : Byte) : hiByte (addrOf h l) = h := by
  apply BitVec.eq_of_toNat_eq
  rw [hiByte_toNat, addrOf_toNat]
  have := l.isLt
  omega

@[simp] theorem loByte_addrOf (h l : Byte) : loByte (addrOf h l) = l := by
  apply BitVec.eq_of_toNat_eq
  rw [loByte_toNat, addrOf_toNat]
  have := l.isLt
  omega

@[simp] theorem Reg.ofCode?_code (r : Reg) : Reg.ofCode? r.code = some r := by cases r <;> rfl

theorem Reg.code_of_ofCode? {b : Byte} {r : Reg} (h : Reg.ofCode? b = some r) : r.code = b := by
  simpa using List.find?_some h

@[simp] theorem Opcode.ofTag?_tag (o : Opcode) : Opcode.ofTag? o.tag = some o := by cases o <;> rfl

theorem Opcode.tag_of_ofTag? {t : Byte} {o : Opcode} (h : Opcode.ofTag? t = some o) : o.tag = t := by
  simpa using List.find?_some h

/-- The decoder on the tag of a defined opcode. -/
@[simp] theorem decodeOne_tag (rt : ReservedTags) (k : Nat) (o : Opcode) (ops : List Byte) :
    decodeOne rt k (o.tag :: ops) = decodeOperands o k ops := by
  simp [decodeOne]

@[simp] theorem decodeReg_code (k : Nat) (r : Reg) : decodeReg k r.code = .ok r := by
  simp [decodeReg]

theorem decodeReg_ok {k : Nat} {b : Byte} {r : Reg} (h : decodeReg k b = .ok r) : b = r.code := by
  unfold decodeReg at h
  split at h
  · rename_i q hq
    cases h
    exact (Reg.code_of_ofCode? hq).symm
  · cases h

end Sys2Proof
end

