-- ==== Sys2Proof/Laws/State.lean ====
section
/-! SUPPORT. One lemma per field per update of the state, and what the readers of registers and memory give after an update:
no later proof unfolds a record update. -/

namespace Sys2Proof.Machine

/-! ### `setReg` -/

@[simp] theorem setReg_regs (s : State) (r : Reg) (v : Byte) : (setReg r v s).regs = s.regs.set r v := rfl
@[simp] theorem setReg_zf (s : State) (r : Reg) (v : Byte) : (setReg r v s).zf = s.zf := rfl
@[simp] theorem setReg_cont (s : State) (r : Reg) (v : Byte) : (setReg r v s).cont = s.cont := rfl
@[simp] theorem setReg_mset (s : State) (r : Reg) (v : Byte) : (setReg r v s).mset = s.mset := rfl
@[simp] theorem setReg_pc (s : State) (r : Reg) (v : Byte) : (setReg r v s).pc = s.pc := rfl
@[simp] theorem setReg_sp (s : State) (r : Reg) (v : Byte) : (setReg r v s).sp = s.sp := rfl
@[simp] theorem setReg_stk (s : State) (r : Reg) (v : Byte) : (setReg r v s).stk = s.stk := rfl
@[simp] theorem setReg_mem (s : State) (r : Reg) (v : Byte) : (setReg r v s).mem = s.mem := rfl
@[simp] theorem setReg_prog (s : State) (r : Reg) (v : Byte) : (setReg r v s).prog = s.prog := rfl
@[simp] theorem setReg_run (s : State) (r : Reg) (v : Byte) : (setReg r v s).run = s.run := rfl
@[simp] theorem setReg_history (s : State) (r : Reg) (v : Byte) : (setReg r v s).history = s.history := rfl
@[simp] theorem readMem_setReg (s : State) (r : Reg) (v : Byte) (q : Word16) : readMem (setReg r v s) q = readMem s q := rfl
@[simp] theorem slot_setReg (s : State) (r : Reg) (v : Byte) (i : Nat) : slot (setReg r v s) i = slot s i := rfl

/-! ### `setZf` -/

@[simp] theorem setZf_regs (s : State) (b : Bool) : (setZf b s).regs = s.regs := rfl
@[simp] theorem setZf_zf (s : State) (b : Bool) : (setZf b s).zf = b := rfl
@[simp] theorem setZf_cont (s : State) (b : Bool) : (setZf b s).cont = s.cont := rfl
@[simp] theorem setZf_mset (s : State) (b : Bool) : (setZf b s).mset = s.mset := rfl
@[simp] theorem setZf_pc (s : State) (b : Bool) : (setZf b s).pc = s.pc := rfl
@[simp] theorem setZf_sp (s : State) (b : Bool) : (setZf b s).sp = s.sp := rfl
@[simp] theorem setZf_stk (s : State) (b : Bool) : (setZf b s).stk = s.stk := rfl
@[simp] theorem setZf_mem (s : State) (b : Bool) : (setZf b s).mem = s.mem := rfl
@[simp] theorem setZf_prog (s : State) (b : Bool) : (setZf b s).prog = s.prog := rfl
@[simp] theorem setZf_run (s : State) (b : Bool) : (setZf b s).run = s.run := rfl
@[simp] theorem setZf_history (s : State) (b : Bool) : (setZf b s).history = s.history := rfl
@[simp] theorem getReg_setZf (s : State) (b : Bool) (q : Reg) : getReg (setZf b s) q = getReg s q := rfl
@[simp] theorem readMem_setZf (s : State) (b : Bool) (q : Word16) : readMem (setZf b s) q = readMem s q := rfl
@[simp] theorem slot_setZf (s : State) (b : Bool) (i : Nat) : slot (setZf b s) i = slot s i := rfl

/-! ### `memWrite` -/

@[simp] theorem memWrite_regs (s : State) (a : Word16) (v : Byte) : (memWrite a v s).regs = s.regs := rfl
@[simp] theorem memWrite_zf (s : State) (a : Word16) (v : Byte) : (memWrite a v s).zf = s.zf := rfl
@[simp] theorem memWrite_cont (s : State) (a : Word16) (v : Byte) : (memWrite a v s).cont = s.cont := rfl
@[simp] theorem memWrite_mset (s : State) (a : Word16) (v : Byte) : (memWrite a v s).mset = s.mset := rfl
@[simp] theorem memWrite_pc (s : State) (a : Word16) (v : Byte) : (memWrite a v s).pc = s.pc := rfl
@[simp] theorem memWrite_sp (s : State) (a : Word16) (v : Byte) : (memWrite a v s).sp = s.sp := rfl
@[simp] theorem memWrite_stk (s : State) (a : Word16) (v : Byte) : (memWrite a v s).stk = s.stk := rfl
@[simp] theorem memWrite_mem (s : State) (a : Word16) (v : Byte) : (memWrite a v s).mem = s.mem.write a.toNat v := rfl
@[simp] theorem memWrite_prog (s : State) (a : Word16) (v : Byte) : (memWrite a v s).prog = s.prog := rfl
@[simp] theorem memWrite_run (s : State) (a : Word16) (v : Byte) : (memWrite a v s).run = s.run := rfl
@[simp] theorem memWrite_history (s : State) (a : Word16) (v : Byte) : (memWrite a v s).history = s.history := rfl
@[simp] theorem getReg_memWrite (s : State) (a : Word16) (v : Byte) (q : Reg) : getReg (memWrite a v s) q = getReg s q := rfl
@[simp] theorem slot_memWrite (s : State) (a : Word16) (v : Byte) (i : Nat) : slot (memWrite a v s) i = slot s i := rfl

/-! ### `setPc` -/

@[simp] theorem setPc_regs (s : State) (t : Word16) : (setPc t s).regs = s.regs := rfl
@[simp] theorem setPc_zf (s : State) (t : Word16) : (setPc t s).zf = s.zf := rfl
@[simp] theorem setPc_cont (s : State) (t : Word16) : (setPc t s).cont = s.cont := rfl
@[simp] theorem setPc_mset (s : State) (t : Word16) : (setPc t s).mset = true := rfl
@[simp] theorem setPc_pc (s : State) (t : Word16) : (setPc t s).pc = t := rfl
@[simp] theorem setPc_sp (s : State) (t : Word16) : (setPc t s).sp = s.sp := rfl
@[simp] theorem setPc_stk (s : State) (t : Word16) : (setPc t s).stk = s.stk := rfl
@[simp] theorem setPc_mem (s : State) (t : Word16) : (setPc t s).mem = s.mem := rfl
@[simp] theorem setPc_prog (s : State) (t : Word16) : (setPc t s).prog = s.prog := rfl
@[simp] theorem setPc_run (s : State) (t : Word16) : (setPc t s).run = s.run := rfl
@[simp] theorem setPc_history (s : State) (t : Word16) : (setPc t s).history = s.history := rfl
@[simp] theorem getReg_setPc (s : State) (t : Word16) (q : Reg) : getReg (setPc t s) q = getReg s q := rfl
@[simp] theorem readMem_setPc (s : State) (t : Word16) (q : Word16) : readMem (setPc t s) q = readMem s q := rfl
@[simp] theorem slot_setPc (s : State) (t : Word16) (i : Nat) : slot (setPc t s) i = slot s i := rfl

/-! ### `emit` -/

@[simp] theorem emit_regs (s : State) (e : Event) : (emit e s).regs = s.regs := rfl
@[simp] theorem emit_zf (s : State) (e : Event) : (emit e s).zf = s.zf := rfl
@[simp] theorem emit_cont (s : State) (e : Event) : (emit e s).cont = s.cont := rfl
@[simp] theorem emit_mset (s : State) (e : Event) : (emit e s).mset = s.mset := rfl
@[simp] theorem emit_pc (s : State) (e : Event) : (emit e s).pc = s.pc := rfl
@[simp] theorem emit_sp (s : State) (e : Event) : (emit e s).sp = s.sp := rfl
@[simp] theorem emit_stk (s : State) (e : Event) : (emit e s).stk = s.stk := rfl
@[simp] theorem emit_mem (s : State) (e : Event) : (emit e s).mem = s.mem := rfl
@[simp] theorem emit_prog (s : State) (e : Event) : (emit e s).prog = s.prog := rfl
@[simp] theorem emit_run (s : State) (e : Event) : (emit e s).run = s.run := rfl
@[simp] theorem emit_history (s : State) (e : Event) : (emit e s).history = s.history ++ [e] := rfl
@[simp] theorem getReg_emit (s : State) (e : Event) (q : Reg) : getReg (emit e s) q = getReg s q := rfl
@[simp] theorem readMem_emit (s : State) (e : Event) (q : Word16) : readMem (emit e s) q = readMem s q := rfl
@[simp] theorem slot_emit (s : State) (e : Event) (i : Nat) : slot (emit e s) i = slot s i := rfl

/-! ### `raiseFault` -/

@[simp] theorem raiseFault_regs (s : State) (k : RunFault) : (raiseFault k s).regs = s.regs := rfl
@[simp] theorem raiseFault_zf (s : State) (k : RunFault) : (raiseFault k s).zf = s.zf := rfl
@[simp] theorem raiseFault_cont (s : State) (k : RunFault) : (raiseFault k s).cont = s.cont := rfl
@[simp] theorem raiseFault_mset (s : State) (k : RunFault) : (raiseFault k s).mset = s.mset := rfl
@[simp] theorem raiseFault_pc (s : State) (k : RunFault) : (raiseFault k s).pc = s.pc := rfl
@[simp] theorem raiseFault_sp (s : State) (k : RunFault) : (raiseFault k s).sp = s.sp := rfl
@[simp] theorem raiseFault_stk (s : State) (k : RunFault) : (raiseFault k s).stk = s.stk := rfl
@[simp] theorem raiseFault_mem (s : State) (k : RunFault) : (raiseFault k s).mem = s.mem := rfl
@[simp] theorem raiseFault_prog (s : State) (k : RunFault) : (raiseFault k s).prog = s.prog := rfl
@[simp] theorem raiseFault_run (s : State) (k : RunFault) : (raiseFault k s).run = .faulted k := rfl
@[simp] theorem raiseFault_history (s : State) (k : RunFault) : (raiseFault k s).history = s.history := rfl
@[simp] theorem getReg_raiseFault (s : State) (k : RunFault) (q : Reg) : getReg (raiseFault k s) q = getReg s q := rfl
@[simp] theorem readMem_raiseFault (s : State) (k : RunFault) (q : Word16) : readMem (raiseFault k s) q = readMem s q := rfl
@[simp] theorem slot_raiseFault (s : State) (k : RunFault) (i : Nat) : slot (raiseFault k s) i = slot s i := rfl

end Sys2Proof.Machine
end

