-- ==== Sys2Proof/Laws/Host.lean ====
section
/-! SUPPORT. What the host's hand-over of a program can do, said once. -/

namespace Sys2Proof.Machine

theorem checkLength_eq_ok {p q : List Instr} : checkLength p = .ok q ↔ q = p ∧ p.length ≤ Config.maxProgramLen := by
  unfold checkLength
  split
  · rename_i h
    simp only [reduceCtorEq, false_iff, not_and]
    exact fun _ => Nat.not_le.mpr h
  · rename_i h
    simp only [Except.ok.injEq, eq_comm (a := p), Nat.not_lt.mp h, and_true]

/-- A program is accepted as it is, exactly when it is well-formed. -/
theorem acceptProgram_eq_ok {rt : ReservedTags} {p q : List Instr} :
    acceptProgram rt p = .ok q ↔ q = p ∧ Program.wf rt p = true := by
  unfold acceptProgram
  by_cases hl : p.length ≤ Config.maxProgramLen
  · rw [checkLength_eq_ok.mpr ⟨rfl, hl⟩]
    show (match p.find? fun i => !i.wf rt with
      | none => Except.ok p
      | some i => .error (HostError.noSuchInstruction i)) = .ok q ↔ _
    cases hf : p.find? fun i => !i.wf rt with
    | none =>
      have hw : Program.wf rt p = true := by
        simpa [Program.wf, hl] using List.find?_eq_none.mp hf
      simp [hw, eq_comm]
    | some i =>
      have hi := List.find?_some hf
      have hm := List.mem_of_find?_eq_some hf
      have hw : Program.wf rt p ≠ true := fun h => by
        simp only [Program.wf, Bool.and_eq_true, List.all_eq_true] at h
        simp [h.1 i hm] at hi
      simp [hw]
  · have hw : Program.wf rt p ≠ true := fun h => by
      simp only [Program.wf, Bool.and_eq_true, decide_eq_true_eq] at h
      exact hl h.2
    have hc : checkLength p = .error (.programTooLong p.length) := if_pos (Nat.not_le.mp hl)
    simp [hc, hw, asHostError, Bind.bind, Except.bind]

end Sys2Proof.Machine
end

