-- ==== Sys2Proof/Laws/Memory.lean ====
section
/-! SUPPORT. Data memory: reads after writes, and the canonical form, which every write keeps. -/

namespace Sys2Proof.Machine

theorem Memory.read_of_lt (m : Memory) (a : Nat) (h : ∀ c ∈ m, a < c.1) : m.read a = Memory.unlisted := by
  induction m with
  | nil => rfl
  | cons c m ih =>
    obtain ⟨b, w⟩ := c
    have hb : a < b := h (b, w) (by simp)
    have hm : ∀ c ∈ m, a < c.1 := fun c hc => h c (by simp [hc])
    simp [Memory.read, Nat.ne_of_lt hb, ih hm]

/-- A write to a memory whose addresses rise strictly reads back at its address and nowhere else. -/
theorem Memory.read_write (m : Memory) (hm : m.Pairwise (fun c d => c.1 < d.1)) (a b : Nat) (v : Byte) :
    (Memory.write m a v).read b = if b = a then v else m.read b := by
  induction m with
  | nil =>
    by_cases hv : v = Memory.unlisted <;> simp [Memory.write, Memory.read, hv]
  | cons c m ih =>
    obtain ⟨e, w⟩ := c
    have hlt : ∀ d ∈ m, e < d.1 := (List.pairwise_cons.mp hm).1
    have ih := ih (List.pairwise_cons.mp hm).2
    simp only [Memory.write]
    split
    · rename_i hae
      have hread : Memory.read ((e, w) :: m) a = Memory.unlisted :=
        Memory.read_of_lt _ a (by
          intro c hc
          rcases List.mem_cons.mp hc with rfl | hc
          · exact hae
          · exact lt_trans hae (hlt c hc))
      by_cases hv : v = Memory.unlisted
      · by_cases hb : b = a
        · subst hb; simp [hv, hread]
        · simp [hv, hb]
      · simp [hv, Memory.read]
    · split
      · rename_i _ hae
        subst hae
        have hread : Memory.read m a = Memory.unlisted := Memory.read_of_lt m a hlt
        by_cases hv : v = Memory.unlisted
        · by_cases hb : b = a
          · subst hb; simp [hv, hread]
          · simp [hv, hb, Memory.read]
        · by_cases hb : b = a <;> simp [hv, hb, Memory.read]
      · rename_i hna hae
        simp only [Memory.read, ih]
        by_cases hb : b = e
        · have : e ≠ a := fun h => hae h.symm
          subst hb; simp [this]
        · simp [hb]

/-- Every cell of a written memory is an old cell or the written one, which then does not read as unlisted. -/
theorem Memory.mem_write {m : Memory} {a : Nat} {v : Byte} {c : Host.Cell} (h : c ∈ Memory.write m a v) :
    c ∈ m ∨ (c = (a, v) ∧ v ≠ Memory.unlisted) := by
  induction m with
  | nil =>
    by_cases hv : v = Memory.unlisted <;> simp_all [Memory.write]
  | cons d m ih =>
    obtain ⟨e, w⟩ := d
    simp only [Memory.write] at h
    split at h
    · by_cases hv : v = Memory.unlisted <;> simp_all
      tauto
    · split at h
      · by_cases hv : v = Memory.unlisted <;> simp_all
        tauto
      · rcases List.mem_cons.mp h with rfl | h
        · simp
        · rcases ih h with h | h <;> simp [h]

/-- A write keeps the canonical form. -/
theorem Memory.write_wf {m : Memory} (hm : m.wf) (a : Nat) (ha : a < Config.memSize) (v : Byte) :
    (Memory.write m a v).wf := by
  refine ⟨?_, fun c hc => ?_⟩
  · have hp := hm.1
    clear hm
    induction m with
    | nil => by_cases hv : v = Memory.unlisted <;> simp [Memory.write, hv]
    | cons d m ih =>
      obtain ⟨e, w⟩ := d
      obtain ⟨hlt, hp'⟩ := List.pairwise_cons.mp hp
      simp only [Memory.write]
      split
      · rename_i hae
        split
        · exact hp
        · refine List.pairwise_cons.mpr ⟨fun c hc => ?_, hp⟩
          rcases List.mem_cons.mp hc with rfl | hc
          · exact hae
          · exact lt_trans hae (hlt c hc)
      · split
        · rename_i hae
          subst hae
          split
          · exact hp'
          · exact List.pairwise_cons.mpr ⟨hlt, hp'⟩
        · rename_i hna hae
          refine List.pairwise_cons.mpr ⟨fun c hc => ?_, ih hp'⟩
          rcases Memory.mem_write hc with hc | ⟨rfl, -⟩
          · exact hlt c hc
          · simp only; omega
  · rcases Memory.mem_write hc with hc | ⟨rfl, hv⟩
    · exact hm.2 c hc
    · exact ⟨ha, hv⟩

/-- `MemWrite` keeps the canonical form: every 16-bit address exists (R60). -/
theorem memWrite_wf {s : State} (h : s.mem.wf) (a : Word16) (v : Byte) : (memWrite a v s).mem.wf :=
  Memory.write_wf h a.toNat a.isLt v

theorem reset_memory_wf : State.reset.mem.wf := by decide

end Sys2Proof.Machine
end

