-- ==== Sys2Proof/Laws/Registers.lean ====
section
/-! SUPPORT. The register file: a register reads back what was written, and no write reaches another register (R22). -/

namespace Sys2Proof.Machine

@[simp] theorem Regs.get_set_same (x : Regs) (r : Reg) (v : Byte) : (x.set r v).get r = v := by
  cases r <;> rfl

theorem Regs.get_set_other (x : Regs) {r q : Reg} (v : Byte) (h : q ≠ r) : (x.set r v).get q = x.get q := by
  cases r <;> cases q <;> first | rfl | exact absurd rfl h

@[simp] theorem getReg_setReg_same (s : State) (r : Reg) (v : Byte) : getReg (setReg r v s) r = v :=
  Regs.get_set_same s.regs r v

theorem getReg_setReg_other (s : State) {r q : Reg} (v : Byte) (h : q ≠ r) : getReg (setReg r v s) q = getReg s q :=
  Regs.get_set_other s.regs v h

/-- A register file is what its ten registers read as. -/
theorem Regs.ext_get {x y : Regs} (h : ∀ r, x.get r = y.get r) : x = y := by
  cases x; cases y
  have hax := h .ax; have hbx := h .bx; have hcx := h .cx; have hdx := h .dx; have hret := h .ret
  have h1 := h .f1; have h2 := h .f2; have h3 := h .f3; have h4 := h .f4; have hf := h .fret
  simp only [Regs.get] at hax hbx hcx hdx hret h1 h2 h3 h4 hf
  subst hax hbx hcx hdx hret h1 h2 h3 h4 hf
  rfl

theorem sameRegsExcept_setReg (s : State) (r : Reg) (v : Byte) : SameRegsExcept [r] s (setReg r v s) :=
  fun _ hq => getReg_setReg_other s v (by simpa using hq)

end Sys2Proof.Machine
end

