-- ==== Sys2Proof/Laws/Ops.lean ====
section
/-! SUPPORT. One lemma per shared operation that says once everything it can do; proofs cite these and do not unfold. -/

namespace Sys2Proof.Machine

/-! ### The stack (R35, R36) -/

/-- A push stores at SP and moves SP up by one, and touches nothing else. -/
structure Pushed (v : Byte) (s t : State) : Prop where
  room : s.sp.val < 255
  sp : t.sp.val = s.sp.val + 1
  stored : slot t s.sp.val = some v
  others : ∀ i, i ≠ s.sp.val → slot t i = slot s i
  rest : t = { s with stk := t.stk, sp := t.sp }

theorem stackPush_some {v : Byte} {s t : State} (h : stackPush v s = some t) : Pushed v s t := by
  unfold stackPush at h
  split at h
  · rename_i hlt
    cases h
    exact ⟨hlt, rfl, by simp [slot, hlt], fun i hi => by simp [slot, Ne.symm hi], rfl⟩
  · cases h

theorem stackPush_of_room (v : Byte) {s : State} (h : s.sp.val < 255) : ∃ t, stackPush v s = some t := by
  simp [stackPush, h]

theorem stackPush_full (v : Byte) {s : State} (h : s.sp.val = 255) : stackPush v s = none := by
  simp [stackPush, h]

/-- A pop answers the byte below SP and moves SP down by one, and touches nothing else. -/
structure Popped (v : Byte) (s t : State) : Prop where
  held : 0 < s.sp.val
  sp : t.sp.val = s.sp.val - 1
  top : slot s (s.sp.val - 1) = some v
  rest : t = { s with sp := t.sp }

theorem stackPop_some {v : Byte} {s t : State} (h : stackPop s = some (v, t)) : Popped v s t := by
  unfold stackPop at h
  split at h
  · rename_i hlt
    cases h
    exact ⟨hlt, rfl, by simp only [slot]; exact Vector.getElem?_eq_getElem (by omega), rfl⟩
  · cases h

theorem stackPop_of_held {s : State} (h : 0 < s.sp.val) : ∃ v t, stackPop s = some (v, t) := by
  simp [stackPop, h]

theorem stackPop_empty {s : State} (h : s.sp.val = 0) : stackPop s = none := by
  simp [stackPop, h]

/-- The two pushes of CALL. -/
structure PushedReturn (ra : Word16) (s t : State) : Prop where
  room : s.sp.val < 254
  sp : t.sp.val = s.sp.val + 2
  low : slot t s.sp.val = some (loByte ra)
  high : slot t (s.sp.val + 1) = some (hiByte ra)
  others : ∀ i, i ≠ s.sp.val → i ≠ s.sp.val + 1 → slot t i = slot s i
  rest : t = { s with stk := t.stk, sp := t.sp }

theorem pushReturnAddress_some {ra : Word16} {s t : State} (h : pushReturnAddress ra s = some t) :
    PushedReturn ra s t := by
  simp only [pushReturnAddress, Option.bind_eq_bind, Option.bind_eq_some_iff] at h
  obtain ⟨u, hu, ht⟩ := h
  have pu := stackPush_some hu
  have pt := stackPush_some ht
  have hru := pt.room
  have hsu := pu.sp
  refine ⟨by omega, by rw [pt.sp, hsu], ?_, ?_, fun i h1 h2 => ?_, ?_⟩
  · rw [pt.others _ (by omega), pu.stored]
  · rw [← hsu, pt.stored]
  · rw [pt.others _ (by omega), pu.others _ h1]
  · rw [pt.rest, pu.rest]

theorem pushReturnAddress_of_room (ra : Word16) {s : State} (h : s.sp.val < 254) :
    ∃ t, pushReturnAddress ra s = some t := by
  obtain ⟨u, hu⟩ := stackPush_of_room (loByte ra) (s := s) (by omega)
  obtain ⟨t, ht⟩ := stackPush_of_room (hiByte ra) (s := u) (by rw [(stackPush_some hu).sp]; omega)
  exact ⟨t, by simp [pushReturnAddress, hu, ht]⟩

theorem pushReturnAddress_full (ra : Word16) {s : State} (h : 254 ≤ s.sp.val) : pushReturnAddress ra s = none := by
  cases e : pushReturnAddress ra s with
  | none => rfl
  | some t => have := (pushReturnAddress_some e).room; omega

/-- The two pops of RETURN. -/
structure PoppedReturn (ra : Word16) (s t : State) : Prop where
  held : 2 ≤ s.sp.val
  sp : t.sp.val = s.sp.val - 2
  high : slot s (s.sp.val - 1) = some (hiByte ra)
  low : slot s (s.sp.val - 2) = some (loByte ra)
  rest : t = { s with sp := t.sp }

theorem popReturnAddress_some {ra : Word16} {s t : State} (h : popReturnAddress s = some (ra, t)) :
    PoppedReturn ra s t := by
  simp only [popReturnAddress, Option.bind_eq_bind, Option.bind_eq_some_iff, Prod.exists] at h
  obtain ⟨hi, u, hu, lo, w, hw, e⟩ := h
  cases e
  have pu := stackPop_some hu
  have pw := stackPop_some hw
  have h1 := pu.sp
  have h2 := pw.held
  have hslot : ∀ i, slot u i = slot s i := fun i => by rw [pu.rest]; rfl
  refine ⟨by omega, by rw [pw.sp, h1]; omega, by rw [pu.top, hiByte_addrOf], ?_, ?_⟩
  · rw [loByte_addrOf, ← pw.top, hslot, h1]; congr 1
  · rw [pw.rest, pu.rest]

theorem popReturnAddress_of_held {s : State} (h : 2 ≤ s.sp.val) : ∃ ra t, popReturnAddress s = some (ra, t) := by
  obtain ⟨hi, u, hu⟩ := stackPop_of_held (s := s) (by omega)
  obtain ⟨lo, t, ht⟩ := stackPop_of_held (s := u) (by rw [(stackPop_some hu).sp]; omega)
  exact ⟨addrOf hi lo, t, by simp [popReturnAddress, hu, ht]⟩

theorem popReturnAddress_short {s : State} (h : s.sp.val ≤ 1) : popReturnAddress s = none := by
  cases e : popReturnAddress s with
  | none => rfl
  | some x => obtain ⟨ra, t⟩ := x; have := (popReturnAddress_some e).held; omega

/-! ### Data memory (R64) -/

@[simp] theorem memRead_length (s : State) (a : Word16) (n : Nat) : (memRead s a n).length = n := by
  simp [memRead]

theorem memRead_getElem? (s : State) (a : Word16) {n j : Nat} (h : j < n) :
    (memRead s a n)[j]? = some (s.mem.read (a.toNat + j)) := by
  simp [memRead, h]

/-! ### One step (R32) -/

/-- Every instruction's own rule answers a next state. -/
theorem exec_next (i : Instr) (s : State) : ∃ t, exec i s = .next t := by
  cases i <;> simp only [exec, execAdd, execSub, execSetret, execPut, execMov, execPutmem, execPush, execPop, execExit, execNop,
    execCmp, execJump, execJz, execCall, execRet, execRender, execWait, execReserved] <;>
    first
    | exact ⟨_, rfl⟩
    | (split <;> exact ⟨_, rfl⟩)

/-- What a step with a next state has done: the run was in progress with a program, and either the pc was at or beyond its
end, or the fetched instruction ran and the end of the step followed. -/
theorem step_next {s t : State} (h : step s = .next t) :
    s.run = .running ∧ ∃ p, s.prog = some p ∧
      ((fetchAt p s.pc = none ∧ t = implicitHalt s) ∨
        ∃ i u, fetchAt p s.pc = some i ∧ exec i s = .next u ∧ t = afterInstr u) := by
  unfold step at h
  split at h
  · cases h
  · cases h
  · cases h
  · rename_i hrun
    refine ⟨hrun, ?_⟩
    split at h
    · cases h
    · rename_i p hp
      refine ⟨p, hp, ?_⟩
      split at h
      · rename_i hf
        cases h
        exact .inl ⟨hf, rfl⟩
      · rename_i i hf
        obtain ⟨u, hu⟩ := exec_next i s
        rw [hu] at h
        cases h
        exact .inr ⟨i, u, hf, hu, rfl⟩

/-- The step of a fetched instruction. -/
theorem step_of_exec {s t : State} {p : List Instr} {i : Instr} (hrun : s.run = .running) (hp : s.prog = some p)
    (hf : fetchAt p s.pc = some i) (ht : exec i s = .next t) : step s = .next (afterInstr t) := by
  simp [step, hrun, hp, hf, ht]

/-- The step at or beyond the end of the program. -/
theorem step_off_end {s : State} {p : List Instr} (hrun : s.run = .running) (hp : s.prog = some p)
    (hf : fetchAt p s.pc = none) : step s = .next (implicitHalt s) := by
  simp [step, hrun, hp, hf]

/-- What follows an instruction changes only pc, MSET and the run state. -/
theorem afterInstr_rest (t : State) :
    afterInstr t = { t with pc := (afterInstr t).pc, mset := (afterInstr t).mset, run := (afterInstr t).run } := by
  unfold afterInstr loopTest endOfStep
  split <;> repeat' split
  all_goals rfl

end Sys2Proof.Machine
end

