-- ==== Sys2Proof/Laws/PerInstr.lean ====
section
/-! SUPPORT. What holds of every instruction as syntax, one lemma per constructor: the shape of its encoding. -/

namespace Sys2Proof.Laws.EncodingShape

/-- The encoding has the instruction's length, and that of a defined opcode begins with its tag and is one byte longer than
its arity (R100, R104). -/
def Statement (i : Instr) : Prop :=
  (encode i).length = i.size ∧
  ∀ o, i.opcode? = some o → (encode i).head? = some o.tag ∧ i.size = 1 + o.arity

theorem add (d s : Reg) : Statement (.add d s) := ⟨rfl, fun _ h => by cases h; exact ⟨rfl, rfl⟩⟩
theorem sub (d s : Reg) : Statement (.sub d s) := ⟨rfl, fun _ h => by cases h; exact ⟨rfl, rfl⟩⟩
theorem setret (i : Byte) : Statement (.setret i) := ⟨rfl, fun _ h => by cases h; exact ⟨rfl, rfl⟩⟩
theorem put (d : Reg) (i : Byte) : Statement (.put d i) := ⟨rfl, fun _ h => by cases h; exact ⟨rfl, rfl⟩⟩
theorem mov (d s : Reg) : Statement (.mov d s) := ⟨rfl, fun _ h => by cases h; exact ⟨rfl, rfl⟩⟩
theorem putmem (h l v : Byte) : Statement (.putmem h l v) := ⟨rfl, fun _ h => by cases h; exact ⟨rfl, rfl⟩⟩
theorem push (r : Reg) : Statement (.push r) := ⟨rfl, fun _ h => by cases h; exact ⟨rfl, rfl⟩⟩
theorem pop (r : Reg) : Statement (.pop r) := ⟨rfl, fun _ h => by cases h; exact ⟨rfl, rfl⟩⟩
theorem exit : Statement .exit := ⟨rfl, fun _ h => by cases h; exact ⟨rfl, rfl⟩⟩
theorem nop : Statement .nop := ⟨rfl, fun _ h => by cases h; exact ⟨rfl, rfl⟩⟩
theorem cmp (a b : Reg) : Statement (.cmp a b) := ⟨rfl, fun _ h => by cases h; exact ⟨rfl, rfl⟩⟩
theorem jump (h l : Byte) : Statement (.jump h l) := ⟨rfl, fun _ h => by cases h; exact ⟨rfl, rfl⟩⟩
theorem jz (h l : Byte) : Statement (.jz h l) := ⟨rfl, fun _ h => by cases h; exact ⟨rfl, rfl⟩⟩
theorem call (h l : Byte) : Statement (.call h l) := ⟨rfl, fun _ h => by cases h; exact ⟨rfl, rfl⟩⟩
theorem ret : Statement .ret := ⟨rfl, fun _ h => by cases h; exact ⟨rfl, rfl⟩⟩
theorem render : Statement .render := ⟨rfl, fun _ h => by cases h; exact ⟨rfl, rfl⟩⟩
theorem wait (i : Byte) : Statement (.wait i) := ⟨rfl, fun _ h => by cases h; exact ⟨rfl, rfl⟩⟩
theorem reserved (tag : Byte) (ops : List Byte) : Statement (.reserved tag ops) :=
  ⟨by simp [encode, Instr.size, Nat.add_comm], fun _ h => by cases h⟩

end Sys2Proof.Laws.EncodingShape
end

