-- ==== Sys2Proof/Tests/Slice0.lean ====
section
/-! SUPPORT. Tests. The expected results are those of spec/95_test_vectors.md (V<n>, P<n>) and of the patterns and tables of
spec/30_encoding.md, and for each statement with hypotheses a witness that meets them. -/

namespace Sys2Proof.Tests

open Sys2Proof Sys2Proof.Machine

/-! ### WellFormed: ill-formed terms are refused, well-formed ones are not -/

/-- A `RESERVED_NOP_TAGS` with one entry of each arity. -/
def someTags : ReservedTags := [(0x90, 0), (0x91, 1), (0x92, 2), (0x93, 3)]

theorem test_reserved_wf : Instr.wf someTags (.reserved 0x92 [1, 2]) = true := by decide
theorem test_reserved_unknown_tag_ill : Instr.wf someTags (.reserved 0x94 []) = false := by decide
theorem test_reserved_wrong_arity_ill : Instr.wf someTags (.reserved 0x92 [1]) = false := by decide
theorem test_reserved_defined_tag_ill : Instr.wf [(0x01, 2)] (.reserved 0x01 [1, 2]) = false := by decide
theorem test_tags_wf : someTags.wf := by decide
theorem test_tags_arity_four_ill : ¬ ReservedTags.wf [(0x90, 4)] := by decide
theorem test_tags_defined_tag_ill : ¬ ReservedTags.wf [(0xF1, 1)] := by decide
theorem test_tags_twice_ill : ¬ ReservedTags.wf [(0x90, 1), (0x90, 2)] := by decide
theorem test_program_wf : Program.wf [] [.put .ax 5, .exit] = true := by decide
theorem test_program_reserved_ill : Program.wf [] [.put .ax 5, .reserved 0x90 []] = false := by decide
theorem test_program_too_long_ill : Program.wf [] (List.replicate 65536 .nop) = false := by
  have h : ¬ (List.replicate 65536 Instr.nop).length ≤ Config.maxProgramLen := by
    rw [List.length_replicate]; decide
  rw [Program.wf, decide_eq_false h, Bool.and_false]

/-! ### Decode: every constructor's word, bit by bit from the patterns of R104 and the register bytes of R20 -/

/-- The one instruction an image of one instruction decodes to. -/
def decoded (b : List Byte) : Option Instr :=
  match decodeOne [] 0 b with
  | .ok (i, []) => some i
  | .ok _ => none
  | .error _ => none

theorem test_decode_add : decoded [0b00000001, 0b00000001, 0b00000010] = some (.add .ax .bx) := by decide
theorem test_decode_sub : decoded [0b00000011, 0b00000011, 0b00000100] = some (.sub .cx .dx) := by decide
theorem test_decode_setret : decoded [0b00100000, 0b00101010] = some (.setret 42) := by decide
theorem test_decode_put : decoded [0b00100001, 0b00110000, 0b11001000] = some (.put .fret 200) := by decide
theorem test_decode_mov : decoded [0b00100010, 0b00010000, 0b00100000] = some (.mov .ret .f1) := by decide
theorem test_decode_putmem : decoded [0b01000000, 0b10000000, 0b00000001, 0b11111111] = some (.putmem 0x80 1 255) := by
  decide
theorem test_decode_push : decoded [0b01000001, 0b00100001] = some (.push .f2) := by decide
theorem test_decode_pop : decoded [0b01000010, 0b00100010] = some (.pop .f3) := by decide
theorem test_decode_exit : decoded [0b10000000] = some .exit := by decide
theorem test_decode_nop : decoded [0b10000001] = some .nop := by decide
theorem test_decode_cmp : decoded [0b10000010, 0b00100011, 0b00000001] = some (.cmp .f4 .ax) := by decide
theorem test_decode_jump : decoded [0b10100000, 0b00010010, 0b00110100] = some (.jump 0x12 0x34) := by decide
theorem test_decode_jz : decoded [0b10100001, 0b00000000, 0b00001000] = some (.jz 0 8) := by decide
theorem test_decode_call : decoded [0b10110000, 0b00000001, 0b00000110] = some (.call 1 6) := by decide
theorem test_decode_return : decoded [0b10110001] = some .ret := by decide
theorem test_decode_render : decoded [0b11110000] = some .render := by decide
theorem test_decode_wait : decoded [0b11110001, 0b00000101] = some (.wait 5) := by decide
/-- R114: a reserved tag of arity 2. -/
theorem test_decode_reserved :
    decodeOne someTags 0 [0b10010010, 0xFF, 0x00, 0x80] = .ok (.reserved 0x92 [0xFF, 0x00], [0x80]) := by decide

/-- V114, V117, V122. -/
theorem test_images_decode :
    decodeImage [] [0x41, 0x30, 0x42, 0x23] = .ok [.push .fret, .pop .f4] ∧ decodeImage [] [] = .ok [] ∧
    decodeImage [] [0x21, 0x01, 0x05, 0x21, 0x02, 0x07, 0x01, 0x01, 0x02, 0x22, 0x10, 0x01, 0x80] =
      .ok [.put .ax 5, .put .bx 7, .add .ax .bx, .mov .ret .ax, .exit] := by decide
/-- V118 to V11D. -/
theorem test_illegal_bytes_refused :
    decodeImage [] [0x02] = .error (.illegalTag 0 0x02) ∧ decodeImage [] [0x80, 0xFF] = .error (.illegalTag 1 0xFF) ∧
    decodeImage [] [0x01, 0x05, 0x01] = .error (.illegalRegister 1 0x05) ∧
    decodeImage [] [0x01, 0x01, 0x00] = .error (.illegalRegister 2 0x00) ∧
    decodeImage [] [0x21, 0x11, 0x05] = .error (.illegalRegister 1 0x11) := by decide
/-- V11E to V121. -/
theorem test_cut_off_refused :
    decodeImage [] [0x21, 0x01] = .error (.truncated 0) ∧ decodeImage [] [0x80, 0xA0, 0x00] = .error (.truncated 1) ∧
    decodeImage [] [0xF1] = .error (.truncated 0) ∧ decodeImage [] [0x01, 0x05] = .error (.truncated 0) := by decide
/-- The table's numbering (R101): the tag is the most significant byte. -/
theorem test_table_words :
    decodeTableWord 24 0x21100F = some (.put .ret 15) ∧ decodeTableWord 8 0x80 = some .exit ∧
    decodeTableWord 32 0x408066C8 = some (.putmem 0x80 0x66 0xC8) ∧ decodeTableWord 24 0x010000 = none := by decide

/-! ### Single steps -/

/-- A fresh instance with ZF as given. -/
def fresh (zf : Bool) : State := State.fresh zf none
/-- A run in progress of the program, at its start. -/
def running (p : List Instr) : State := { fresh false with prog := some p, run := .running, cont := true }
/-- One thing about the next state, if there is one. -/
def after {α : Type} (o : Host.Outcome State Fault Refusal) (f : State → α) : Option α :=
  match o with
  | .next t => some (f t)
  | .fault _ | .refused _ => none
/-- ax and bx set. -/
def withAB (a b : Byte) (s : State) : State := setReg .bx b (setReg .ax a s)
/-- ax, bx, ret and ZF. -/
def regsZf (s : State) : Byte × Byte × Byte × Bool := (getReg s .ax, getReg s .bx, getReg s .ret, s.zf)
/-- pc, MSET, SP and the run state. -/
def control (s : State) : Nat × Bool × Nat × RunState := (s.pc.toNat, s.mset, s.sp.val, s.run)

/-- V21, V22. -/
theorem test_add_wraps :
    after (exec (.add .ax .bx) (withAB 255 2 (fresh true))) regsZf = some (1, 2, 0, false) ∧
    after (exec (.add .ax .bx) (withAB 254 2 (fresh false))) regsZf = some (0, 2, 0, true) := by decide
/-- V26. -/
theorem test_add_same_register : after (exec (.add .ax .ax) (withAB 128 9 (fresh false))) regsZf = some (0, 9, 0, true) := by
  decide
/-- V29, V30. -/
theorem test_sub_order :
    after (exec (.sub .ax .bx) (withAB 5 3 (fresh true))) regsZf = some (2, 3, 0, false) ∧
    after (exec (.sub .ax .bx) (withAB 3 5 (fresh true))) regsZf = some (254, 5, 0, false) := by decide
/-- V32, V34. -/
theorem test_sub_equal :
    after (exec (.sub .ax .bx) (withAB 7 7 (fresh false))) regsZf = some (0, 7, 0, true) ∧
    after (exec (.sub .ax .ax) (withAB 77 1 (fresh false))) regsZf = some (0, 1, 0, true) := by decide
/-- V40 to V42. -/
theorem test_cmp :
    after (exec (.cmp .ax .bx) (withAB 5 5 (fresh false))) regsZf = some (5, 5, 0, true) ∧
    after (exec (.cmp .ax .bx) (withAB 5 3 (fresh true))) regsZf = some (5, 3, 0, false) ∧
    after (exec (.cmp .ax .bx) (withAB 3 5 (fresh true))) regsZf = some (3, 5, 0, false) := by decide
/-- V44, V45. -/
theorem test_cmp_extremes :
    after (exec (.cmp .ax .bx) (withAB 0 255 (fresh true))) regsZf = some (0, 255, 0, false) ∧
    after (exec (.cmp .ax .bx) (withAB 255 0 (fresh true))) regsZf = some (255, 0, 0, false) := by decide
/-- V50, V51. -/
theorem test_setret :
    after (exec (.setret 0) (setReg .ret 9 (fresh false))) regsZf = some (0, 0, 0, false) ∧
    after (exec (.setret 255) (fresh true)) regsZf = some (0, 0, 255, true) := by decide
/-- V52, V53. -/
theorem test_put :
    after (exec (.put .ax 0) (withAB 4 0 (fresh false))) regsZf = some (0, 0, 0, false) ∧
    after (exec (.put .fret 200) (fresh true)) (fun t => (getReg t .fret, getReg t .ret, t.zf)) = some (200, 0, true) := by
  decide
/-- V54, V56. -/
theorem test_mov :
    after (exec (.mov .ret .ax) (withAB 12 0 (fresh true))) regsZf = some (12, 0, 12, true) ∧
    after (exec (.mov .ax .bx) (withAB 1 0 (fresh false))) regsZf = some (0, 0, 0, false) := by decide
/-- V60. -/
theorem test_push : after (exec (.push .ax) (withAB 9 0 (fresh false))) (fun t => (slot t 0, t.sp)) = some (some 9, 1) := by
  decide
/-- V61, V62. -/
theorem test_push_at_the_top :
    after (exec (.push .ax) (withAB 1 0 { fresh false with sp := 254 })) (fun t => (slot t 254, t.sp)) =
      some (some 1, 255) ∧
    after (exec (.push .ax) (withAB 1 0 { fresh false with sp := 255 })) (fun t => (slot t 254, control t)) =
      some (some 0, 0, false, 255, .faulted .stackOverflow) := by decide
/-- A stack that holds the low byte `lo` below the high byte `hi`. -/
def holding (lo hi : Byte) (s : State) : State := { s with stk := (s.stk.set 0 lo).set 1 hi, sp := 2 }
/-- V63, V64. -/
theorem test_pop :
    after (exec (.pop .bx) { holding 9 0 (fresh false) with sp := 1 }) (fun t => (getReg t .bx, slot t 0, t.sp)) =
      some (9, some 9, 0) ∧
    after (exec (.pop .bx) (withAB 0 5 (fresh false))) (fun t => (getReg t .bx, control t)) =
      some (5, 0, false, 0, .faulted .stackUnderflow) := by decide
/-- V65. -/
theorem test_pop_zero_keeps_zf :
    after (exec (.pop .ret) { setReg .ret 7 (fresh false) with sp := 1 }) regsZf = some (0, 0, 0, false) := by decide
/-- A run at index `k` of a program of NOPs with `i` there. -/
def runningAt (k : Nat) (i : Instr) : State := { running (List.replicate k .nop ++ [i]) with pc := BitVec.ofNat 16 k }
/-- V70, V7E. -/
theorem test_jump :
    after (step (runningAt 7 (.jump 0 4))) control = some (4, false, 0, .running) ∧
    after (step (runningAt 4 (.jump 0 5))) control = some (5, false, 0, .running) := by decide
/-- V74: the jump leaves the program, and the next step halts. -/
theorem test_jump_off_the_end :
    after (step (runningAt 0 (.jump 0x12 0x34))) control = some (0x1234, false, 0, .running) ∧
    after (step { running [.exit] with pc := 0x1234 }) (fun t => (control t, getReg t .ret)) =
      some ((0x1234, false, 0, .halted 255), 255) := by decide
/-- V71, V72. -/
theorem test_jz :
    after (step { runningAt 6 (.jz 0 8) with zf := true }) (fun t => (control t, t.zf)) =
      some ((8, false, 0, .running), true) ∧
    after (step (runningAt 6 (.jz 0 8))) (fun t => (control t, t.zf)) = some ((7, false, 0, .running), false) := by decide
/-- V76. -/
theorem test_call_low_byte_first :
    after (step { running (List.replicate 256 (.call 0 0)) with pc := 255 }) (fun t => (slot t 0, slot t 1, control t)) =
      some (some 0, some 1, 0, false, 2, .running) := by decide
/-- V77, V78. -/
theorem test_call_at_the_top :
    after (step { runningAt 3 (.call 0 10) with sp := 253 }) (fun t => (slot t 253, control t)) =
      some (some 4, 10, false, 255, .running) ∧
    after (step { runningAt 3 (.call 0 10) with sp := 254 }) (fun t => (slot t 254, control t)) =
      some (some 0, 3, false, 254, .faulted .stackOverflow) := by decide
/-- V7B. -/
theorem test_return : after (step (holding 0x34 0x12 (runningAt 0 .ret))) control = some (0x1234, false, 0, .running) := by
  decide
/-- V7C, V7D. -/
theorem test_return_underflows :
    after (step { runningAt 2 .ret with sp := 1 }) control = some (2, false, 1, .faulted .stackUnderflow) ∧
    after (step (runningAt 2 .ret)) control = some (2, false, 0, .faulted .stackUnderflow) := by decide
/-- V91, V93. -/
theorem test_putmem :
    after (exec (.putmem 255 255 7) (fresh false)) (fun t => (readMem t 0xFFFF, readMem t 0)) = some (7, 0) ∧
    after (exec (.putmem 128 102 200) (fresh false)) (fun t => (t.mem, readMem t (pixelBase 1 2))) =
      some ([(0x8066, 200)], 200) := by decide
/-- Memory is canonical: writing 0 removes the cell, and the order of writes leaves no trace. -/
theorem test_memory_canonical :
    Memory.write [(5, 1)] 5 0 = [] ∧ Memory.write (Memory.write [] 9 1) 3 2 = Memory.write (Memory.write [] 3 2) 9 1 := by
  decide
/-- V94, V95, V97: the last byte of the framebuffer and the one past it, and its first byte. -/
theorem test_render :
    after (exec .render { fresh false with mem := [(0x8000, 0xFF), (0x8EFF, 9), (0x8F00, 5)] })
      (fun t => match t.history with
        | [.render f] => (f.length, f.head?, f.getLast?)
        | _ => (0, none, none)) = some (3840, some 0xFF, some 9) := by decide +kernel
/-- V94. -/
theorem test_last_pixel : pixelBase 39 31 + 2 = 0x8EFF := by decide
/-- V98, V99. -/
theorem test_wait :
    after (step (runningAt 0 (.wait 255))) (fun t => (t.history, control t)) = some ([.wait 255], 1, false, 0, .running) := by
  decide
/-- V100: EXIT on a fresh instance; P1's last step. -/
theorem test_exit :
    after (step (running [.exit])) control = some (1, false, 0, .halted 0) ∧
    after (step (setReg .ret 12 (running [.exit]))) control = some (1, false, 0, .halted 12) := by decide
/-- V101. -/
theorem test_nop : after (step (runningAt 3 .nop)) control = some (4, false, 0, .running) := by decide
/-- R322. -/
theorem test_reserved : after (step (runningAt 3 (.reserved 0x92 [1, 2]))) control = some (4, false, 0, .running) := by decide
/-- V102: the empty program. -/
theorem test_empty_program : after (step (running [])) (fun t => (control t, getReg t .ret)) =
    some ((0, false, 0, .halted 255), 255) := by decide

/-! ### From reset, and the host -/

/-- A program placed from outside runs as the first instruction after reset (log entry 5). -/
theorem test_first_instruction_after_reset :
    after (step (State.reset.withFetchWord 24 0x21012A)) regsZf = some (42, 0, 0, false) ∧
    after (step (State.reset.withFetchWord 8 0x80)) control = some (1, false, 0, .halted 0) := by decide
/-- What an operation is refused with. -/
def refusalOf (r : Except HostError State) : Option HostError :=
  match r with
  | .ok _ => none
  | .error e => some e
/-- R322: with the default map no reserved no-op is loaded, and with a map only the map's, with their arity. -/
theorem test_load_reserved :
    refusalOf (hostStep [] (.loadProgram [.exit, .reserved 0x04 []]) (fresh false)) =
      some (.noSuchInstruction (.reserved 0x04 [])) ∧
    refusalOf (hostStep someTags (.loadProgram [.reserved 0x91 [1]]) (fresh false)) = none ∧
    refusalOf (hostStep someTags (.loadProgram [.reserved 0x91 []]) (fresh false)) =
      some (.noSuchInstruction (.reserved 0x91 [])) := by decide
/-- R322 for the initial program. -/
theorem test_new_reserved :
    refusalOf (hostNew [] false (some [.reserved 0x04 []])) = some (.noSuchInstruction (.reserved 0x04 [])) ∧
    refusalOf (hostNew someTags false (some [.reserved 0x90 []])) = none := by decide
/-- V103. -/
theorem test_execute_without_program : execute 5 (fresh false) = .error .noProgram := by decide
/-- What a run gives back. -/
def resultOf (r : Except HostError (RunResult × State)) : Option RunResult :=
  match r with
  | .ok (x, _) => some x
  | .error _ => none
/-- P6: the run ends in the fault with its pc; P4: off the end. -/
theorem test_runs :
    resultOf (execute 3 (State.fresh false (some [.pop .ax]))) = some (.faulted .stackUnderflow 0) ∧
    resultOf (execute 3 (State.fresh false (some [.put .ret 9]))) = some (.exited 255) ∧
    resultOf (execute 5 (State.fresh false (some [.put .ax 5, .put .bx 7, .add .ax .bx, .mov .ret .ax, .exit]))) =
      some (.exited 12) := by decide

/-! ### The assembler -/

/-- V80. -/
theorem test_labels :
    assemble "@top NOP; JUMP @fwd; JUMP @top; @fwd EXIT;".toList = .ok [.nop, .jump 0 3, .jump 0 0, .exit] := by decide
/-- P1's text. -/
theorem test_program_text :
    assemble "PUT $ax,5; PUT $bx,7;\nADD $ax,$bx; MOV $ret,$ax; EXIT;".toList =
      .ok [.put .ax 5, .put .bx 7, .add .ax .bx, .mov .ret .ax, .exit] := by decide
/-- V86 to V88. -/
theorem test_label_errors :
    assemble "JUMP @nowhere;".toList = .error (.undefinedLabel "nowhere".toList) ∧
    assemble "@x NOP; @x NOP;".toList = .error (.duplicateLabel "x".toList) ∧
    assemble "@x PUT $ax,@x;".toList = .error (.labelMisplaced "x".toList) := by decide
/-- V89 to V8E. -/
theorem test_operand_errors :
    assemble "PUT $ax,256;".toList = .error (.immediateOutOfRange 256) ∧
    assemble "FOO;".toList = .error (.unknownMnemonic "FOO".toList) ∧
    assemble "ADD $ax;".toList = .error (.arityMismatch "ADD".toList 1) ∧
    assemble "PUSH $gx;".toList = .error (.unknownRegister "gx".toList) ∧
    assemble "PUT $AX,1;".toList = .error (.unknownRegister "AX".toList) := by decide
/-- V8G to V8L. -/
theorem test_form_errors :
    assemble "PUSH 5;".toList = .error .operandKindMismatch ∧ assemble "SETRET $ax;".toList = .error .operandKindMismatch ∧
    assemble "JUMP 5;".toList = .error .operandKindMismatch ∧
    assemble "JUMP 0,5;".toList = .error (.arityMismatch "JUMP".toList 2) ∧
    assemble "JUMPIFZERO @l; @l".toList = .error (.unknownMnemonic "JUMPIFZERO".toList) ∧
    assemble "PUT $ax,0x10;".toList = .error .syntaxError := by decide
/-- V8F, V8M. -/
theorem test_mnemonics_any_case :
    assemble "put $ax,1;".toList = .ok [.put .ax 1] ∧ assemble "SetRet 3; Exit;".toList = .ok [.setret 3, .exit] := by decide

/-! ### Witnesses: for each statement with hypotheses a state and operands that meet all of them together -/

theorem running_inv (p : List Instr) (h : p.length ≤ 65535) : StateInv (running p) where
  memory := ⟨List.Pairwise.nil, fun _ h => absurd h List.not_mem_nil⟩
  programLength q hq := by cases hq; exact h
  msetClear := rfl
  runningHasProgram _ := rfl
  runningHasCont _ := rfl
  exitCode c hc := by cases hc
  overflowDepth hf := by cases hf
  underflowDepth hf := by cases hf
  frameLength f hf := absurd hf List.not_mem_nil

theorem running_fetches (i : Instr) : Fetches (running [i]) i := ⟨rfl, [i], rfl, rfl⟩

theorem running_not_faulted (t : State) (h : t.run = .running := by rfl) (k : RunFault) : t.run ≠ .faulted k := by
  rw [h]; exact RunState.noConfusion

theorem length_replicate_le {n : Nat} (h : n ≤ 65535) : (List.replicate n Instr.nop).length ≤ 65535 := by
  rw [List.length_replicate]; exact h

theorem replicate_wf {n : Nat} (h : n ≤ 65535) : Program.wf [] (List.replicate n .nop) = true := by
  rw [Program.wf, Bool.and_eq_true]
  exact ⟨List.all_eq_true.mpr fun i hi => by rw [List.eq_of_mem_replicate hi]; rfl,
    decide_eq_true (length_replicate_le h)⟩

theorem length_replicate_gt : 65535 < (List.replicate 65536 Instr.nop).length := by
  rw [List.length_replicate]; decide

theorem witness_DecodeOneInvertsEncode :
    Instr.wf someTags (.reserved 0x93 [1, 2, 3]) = true ∧ Instr.wf someTags (.reserved 0x90 []) = true ∧
    Instr.wf [] (.putmem 255 255 255) = true := by decide

theorem witness_DecoderAndEncoderAreInverse :
    Program.wf someTags [] = true ∧ Program.wf someTags [.reserved 0x92 [1, 2], .exit] = true ∧
    decodeImage someTags [0x92, 1, 2, 0x80] = .ok [.reserved 0x92 [1, 2], .exit] := by decide

/-- The ends of R113's ranges are illegal tags and their neighbours in the table are not. -/
theorem witness_IllegalTagsAreTheListedOnes :
    (∀ t ∈ ([0x00, 0x02, 0x04, 0x1F, 0x23, 0x3F, 0x43, 0x7F, 0x83, 0x9F, 0xA2, 0xAF, 0xB2, 0xEF, 0xF2, 0xFF] : List Byte),
      decodeOne [] 0 [t, 1, 1, 1] = .error (.illegalTag 0 t)) ∧
    (∀ t ∈ ([0x01, 0x03, 0x20, 0x22, 0x40, 0x42, 0x80, 0x82, 0xA0, 0xA1, 0xB0, 0xB1, 0xF0, 0xF1] : List Byte),
      decodeOne [] 0 [t, 1, 1, 1] ≠ .error (.illegalTag 0 t)) := by decide

theorem witness_OnlyTheTenBytesSpellRegisters :
    let ten : List Byte := [0x01, 0x02, 0x03, 0x04, 0x10, 0x20, 0x21, 0x22, 0x23, 0x30]
    (0x00 : Byte) ∉ ten ∧ (0x05 : Byte) ∉ ten ∧ (0x31 : Byte) ∉ ten ∧ (0x01 : Byte) ∈ ten ∧ (0x30 : Byte) ∈ ten := by decide

theorem witness_CutOffEncodingIsTruncated :
    [0x80, 0x00].length < Opcode.putmem.arity ∧ ([] : List Byte).length < Opcode.wait.arity ∧
    someTags.wf ∧ someTags.arity? 0x93 = some 3 ∧ [0x01, 0x02].length < 3 := by decide

theorem witness_LongImageIsRefused :
    (List.replicate 65536 Instr.nop).all (Instr.wf []) = true ∧ 65535 < (List.replicate 65536 Instr.nop).length :=
  ⟨List.all_eq_true.mpr fun i hi => by rw [List.eq_of_mem_replicate hi]; rfl, length_replicate_gt⟩

theorem witness_ConstructionLeavesTheListedValues :
    Program.wf someTags [.reserved 0x90 []] = true ∧ Program.wf [] (List.replicate 65535 .nop) = true :=
  ⟨by decide, replicate_wf (Nat.le_refl _)⟩

theorem witness_StepKeepsInvariant : ∃ s t, StateInv s ∧ step s = .next t :=
  ⟨running [.nop], _, running_inv _ (by decide), rfl⟩

/-- A new instance with a program, and the run that `execute()` begins on it. -/
theorem witness_EveryReachableStateMeetsInvariant : ∃ s, Reachable [] s ∧ s.run = .running :=
  ⟨_, .host .execute _ _ (.new true (some [.exit]) _ rfl) rfl, rfl⟩

theorem witness_CmpWritesOnlyZeroFlag :
    (getReg (withAB 5 5 (fresh false)) .bx).toNat ≤ (getReg (withAB 5 5 (fresh false)) .ax).toNat ∧
    (getReg (withAB 4 5 (fresh false)) .ax).toNat < (getReg (withAB 4 5 (fresh false)) .bx).toNat := by decide

theorem witness_PushStoresOrOverflows :
    (fresh false).sp.val < 255 ∧ { fresh false with sp := 254 }.sp.val < 255 ∧ { fresh false with sp := 255 }.sp.val = 255 := by
  decide

theorem witness_PopLoadsOrUnderflows :
    0 < { fresh false with sp := 1 }.sp.val ∧ 0 < { fresh false with sp := 255 }.sp.val ∧ (fresh false).sp.val = 0 := by decide

theorem witness_PushThenPopRestores : { fresh false with sp := 254 }.sp.val < 255 := by decide

theorem witness_EmptyStackTakesExactly255Pushes :
    (fresh false).sp = 0 ∧ (List.replicate 255 (1 : Byte)).length ≤ 255 ∧ 255 < (List.replicate 256 (1 : Byte)).length := by
  refine ⟨rfl, ?_, ?_⟩ <;> rw [List.length_replicate]; decide

/-- The same label table serves JUMP, JZ and CALL. -/
theorem witness_JumpSetsPc :
    List.lookup ['e'] [(['a'], 0), (['e'], 65535)] = some (256 * (0xFF : Byte).toNat + (0xFF : Byte).toNat) ∧
    List.lookup ['a'] [(['a'], 0), (['e'], 65535)] = some (256 * (0 : Byte).toNat + (0 : Byte).toNat) := by decide

theorem witness_JzSetsPcOnlyWhenZero : (fresh true).zf = true ∧ (fresh false).zf = false := by decide

theorem witness_CallPushesReturnAddressOrOverflows :
    (let s := { fresh false with sp := 253, pc := 65534 }; s.sp.val < 254 ∧ s.pc.toNat < 65535) ∧
    254 ≤ { fresh false with sp := 254 }.sp.val ∧ 254 ≤ { fresh false with sp := 255 }.sp.val := by decide

theorem witness_ReturnPopsTargetOrUnderflows :
    2 ≤ { fresh false with sp := 2 }.sp.val ∧ { fresh false with sp := 1 }.sp.val ≤ 1 ∧ (fresh false).sp.val ≤ 1 := by decide

theorem witness_ReturnResumesAfterCall :
    ∃ s t, s.sp.val < 254 ∧ exec (.call 1 2) s = .next t ∧
      ∃ u : State, u.sp = t.sp ∧ (∀ i, i = s.sp.val ∨ i = s.sp.val + 1 → slot u i = slot t i) ∧ getReg u .ax = 9 :=
  ⟨fresh false, _, by decide, rfl, setReg .ax 9 _, rfl, fun _ _ => rfl, rfl⟩

theorem witness_MemoryIsAnArrayOfBytes :
    (fresh false).mem.wf ∧ Memory.wf [(0, 1), (0xFFFF, 255)] ∧ ¬ Memory.wf [(0x10000, 1)] ∧ ¬ Memory.wf [(3, 0)] := by decide

theorem witness_PutmemWritesOneByte :
    (fresh false).mem.wf ∧ (0xFFFF : Word16).toNat = 256 * (0xFF : Byte).toNat + (0xFF : Byte).toNat ∧
    (0 : Word16).toNat ≠ 256 * (0xFF : Byte).toNat + (0xFF : Byte).toNat := by decide

theorem witness_PixelsTileTheFramebuffer :
    0 < 3840 ∧ 3839 < 3840 ∧
    ∃ t, exec .render (fresh false) = .next t ∧ t.history = (fresh false).history ++ [.render (framebuffer (fresh false))] :=
  ⟨by decide, by decide, _, rfl, rfl⟩

theorem witness_ExitClearsContAndHalts : ∃ s, StateInv s ∧ Fetches s .exit :=
  ⟨_, running_inv _ (by decide), running_fetches .exit⟩

theorem witness_NopAndReservedOnlyAdvance :
    (∃ s, StateInv s ∧ Fetches s .nop) ∧ ∃ s, StateInv s ∧ Fetches s (.reserved 0x90 []) :=
  ⟨⟨_, running_inv _ (by decide), running_fetches .nop⟩, ⟨_, running_inv _ (by decide), running_fetches (.reserved 0x90 [])⟩⟩

/-- The second instruction of an image, with one before it and one after it. -/
theorem witness_StepRunsTheEncodedInstruction :
    ∃ (s t : State), Program.wf [] ([.nop] ++ .wait 3 :: [.exit]) = true ∧
      decodeImage [] (encodeProgram [.nop] ++ encode (.wait 3) ++ encodeProgram [.exit]) = .ok [.nop, .wait 3, .exit] ∧
      s.prog = some [.nop, .wait 3, .exit] ∧ s.run = .running ∧ s.pc.toNat = [Instr.nop].length ∧
      exec (.wait 3) s = .next t :=
  ⟨{ running [.nop, .wait 3, .exit] with pc := 1 }, _, by decide, by decide, rfl, rfl, by decide, rfl⟩

theorem witness_InstructionCycleOfARun :
    (running []).run = .running ∧ (running []).prog = some [] ∧ ([] : List Instr).length ≤ (running []).pc.toNat ∧
    (running [.nop]).run = .running ∧ (running [.nop]).prog = some [.nop] ∧ (running [.nop]).pc.toNat < [Instr.nop].length := by
  decide

/-- The three cases: a plain advance, a set pc, a fault. -/
theorem witness_EndOfStepAdvancesUnlessSet :
    (∃ s t, StateInv s ∧ Fetches s .nop ∧ exec .nop s = .next t ∧ (∀ k, t.run ≠ .faulted k) ∧ t.mset = false) ∧
    (∃ s t, StateInv s ∧ Fetches s (.jump 0 5) ∧ exec (.jump 0 5) s = .next t ∧ (∀ k, t.run ≠ .faulted k) ∧ t.mset = true) ∧
    (∃ s t, StateInv s ∧ Fetches s (.pop .ax) ∧ exec (.pop .ax) s = .next t ∧ t.run = .faulted .stackUnderflow) :=
  ⟨⟨_, _, running_inv _ (by decide), running_fetches .nop, rfl, running_not_faulted _, rfl⟩,
   ⟨_, _, running_inv _ (by decide), running_fetches (.jump 0 5), rfl, running_not_faulted _, rfl⟩,
   ⟨_, _, running_inv _ (by decide), running_fetches (.pop .ax), rfl, rfl⟩⟩

theorem witness_NoStepOutsideARun :
    (fresh false).run ≠ .running ∧ (running []).run = .running ∧ ∃ s, StateInv s ∧ s.run = .running :=
  ⟨by decide, rfl, running [.render], running_inv _ (by decide), rfl⟩

/-- Each of the four faulting cases, and a push and a pop that do not fault. -/
theorem witness_FaultsExactlyInTheListedCases :
    Fetches { running [.push .ax] with sp := 255 } (.push .ax) ∧ Fetches { running [.push .ax] with sp := 254 } (.push .ax) ∧
    Fetches { running [.call 0 0] with sp := 254 } (.call 0 0) ∧ Fetches (running [.pop .ax]) (.pop .ax) ∧
    Fetches { running [.pop .ax] with sp := 1 } (.pop .ax) ∧ Fetches { running [.ret] with sp := 1 } .ret :=
  ⟨⟨rfl, _, rfl, rfl⟩, ⟨rfl, _, rfl, rfl⟩, ⟨rfl, _, rfl, rfl⟩, ⟨rfl, _, rfl, rfl⟩, ⟨rfl, _, rfl, rfl⟩, ⟨rfl, _, rfl, rfl⟩⟩

theorem witness_OnlyAluInstructionsChangeZf : ∃ s t, step s = .next t ∧ t.zf ≠ s.zf :=
  ⟨running [.cmp .ax .bx], _, rfl, by decide⟩

theorem witness_AtMostOneRegisterPerStep : ∃ s t, step s = .next t ∧ getReg t .ax ≠ getReg s .ax :=
  ⟨running [.put .ax 1], _, rfl, by decide⟩

theorem witness_OnlyStackInstructionsTouchTheStack : ∃ s t, step s = .next t ∧ ¬ SameStack s t :=
  ⟨running [.push .ax], _, rfl, fun h => absurd h.1 (by decide)⟩

theorem witness_OnlyPutmemChangesMemory : ∃ s t, step s = .next t ∧ readMem t 5 ≠ readMem s 5 :=
  ⟨running [.putmem 0 5 1], _, rfl, by decide⟩

theorem witness_NoStepChangesTheProgram : ∃ s t, step s = .next t ∧ s.prog = some [.push .ret] :=
  ⟨running [.push .ret], _, rfl, rfl⟩

theorem witness_OnlyExitClearsCont : ∃ s t, step s = .next t ∧ Fetches s .exit :=
  ⟨running [.exit], _, rfl, running_fetches .exit⟩

theorem witness_OnlyRenderAndWaitAddEvents : ∃ s t, step s = .next t ∧ t.history ≠ s.history :=
  ⟨running [.wait 1], _, rfl, by decide⟩

/-- Two states that differ in slot 1 only, with SP = 1, and the step of a POP. -/
theorem witness_SlotsAboveSpAreInvisible : ∃ s s' t, SameBelowSp s s' ∧ step s = .next t ∧ slot s' 1 ≠ slot s 1 :=
  ⟨{ running [.pop .ax] with sp := 1 }, { holding 0 7 (running [.pop .ax]) with sp := 1 }, _,
   ⟨fun _ _ => rfl, rfl, rfl, fun i hi => by (have : i = 0 := Nat.lt_one_iff.mp hi); subst this; decide, rfl, rfl, rfl,
    ⟨rfl, rfl⟩, ⟨rfl, rfl⟩⟩, rfl, by decide⟩

theorem witness_DataMemoryNeverReachesTheCore : ∃ s s' t, SameButMemory s s' ∧ step s = .next t ∧ readMem s' 9 ≠ readMem s 9 :=
  ⟨running [.render], { running [.render] with mem := [(9, 1)] }, _,
   ⟨fun _ _ => rfl, rfl, ⟨rfl, fun _ _ => rfl⟩, rfl, ⟨rfl, rfl⟩, ⟨rfl, rfl⟩⟩, rfl, by decide⟩

theorem witness_LoadAndUnloadChangeOnlyTheProgram :
    (fresh false).run ≠ .running ∧ Program.wf [] (List.replicate 65535 .nop) = true ∧ decodeImage [] [0x80] = .ok [.exit] :=
  ⟨by decide, replicate_wf (Nat.le_refl _), by decide⟩

theorem witness_ImageLoadsExactlyWhenItDecodes :
    (fresh false).run ≠ .running ∧ 65535 < (List.replicate 65536 Instr.nop).length := ⟨by decide, length_replicate_gt⟩

theorem witness_ExecuteResetsAndKeeps :
    (fresh false).run ≠ .running ∧ (fresh false).prog = none ∧ (State.fresh false (some [.exit])).run ≠ .running ∧
    (State.fresh false (some [.exit])).prog ≠ none := by decide

theorem fresh_inv (p : List Instr) (h : p.length ≤ 65535) : StateInv (State.fresh false (some p)) where
  memory := ⟨List.Pairwise.nil, fun _ h => absurd h List.not_mem_nil⟩
  programLength q hq := by cases hq; exact h
  msetClear := rfl
  runningHasProgram _ := rfl
  runningHasCont hr := by cases hr
  exitCode c hc := by cases hc
  overflowDepth hf := by cases hf
  underflowDepth hf := by cases hf
  frameLength f hf := absurd hf List.not_mem_nil

/-- Each of the three ends. -/
theorem witness_ExecuteReportsHowTheRunEnded :
    (∃ s t c, StateInv s ∧ execute 2 s = .ok (.exited c, t)) ∧
    (∃ s t k pc, StateInv s ∧ execute 2 s = .ok (.faulted k pc, t)) ∧
    (∃ s t, StateInv s ∧ execute 2 s = .ok (.stillRunning, t)) :=
  ⟨⟨_, _, 0, fresh_inv [.exit] (by decide), rfl⟩, ⟨_, _, .stackUnderflow, 0, fresh_inv [.pop .ax] (by decide), rfl⟩,
   ⟨_, _, fresh_inv [.jump 0 0] (by decide), rfl⟩⟩

theorem witness_MoreFuelGivesTheSameEnd :
    ∃ s t r, execute 1 s = .ok (r, t) ∧ r ≠ .stillRunning ∧ 1 ≤ 5 :=
  ⟨State.fresh false (some [.exit]), _, .exited 0, rfl, by decide, by decide⟩

/-- The statements of `JUMP @a; NOP; @a NOP;`. -/
def labelText : List Statement :=
  [.operation ['J', 'U', 'M', 'P'] [.labelRef ['a']], .operation ['N', 'O', 'P'] []] ++ .labelDecl ['a'] ::
    [.operation ['N', 'O', 'P'] []]

theorem witness_EveryOperationIsOneInstruction :
    assembleStatements labelText = .ok [.jump 0 2, .nop, .nop] ∧
    (operations labelText)[2]? = some (['N', 'O', 'P'], []) := by decide

theorem witness_LabelsResolveForwardAndBackward :
    assembleStatements labelText = .ok [.jump 0 2, .nop, .nop] ∧
    (operations labelText)[0]? = some (['J', 'U', 'M', 'P'], [.labelRef ['a']]) := by decide

theorem witness_UnknownMnemonicOrArityIsRefused :
    Statement.operation ['F', 'O', 'O'] [] ∈ [Statement.operation ['F', 'O', 'O'] []] ∧
    opcodeOfMnemonic? ['F', 'O', 'O'] = none ∧ opcodeOfMnemonic? ['A', 'D', 'D'] = some .add ∧
    [AsmOperand.registerRef ['a', 'x']].length ≠ (textKinds .add).length := by decide

/-- A number over 255 in an immediate position, and an undeclared label in a JUMP. -/
theorem witness_InadmissibleOperandIsRefused :
    (∃ (sts : List Statement) (m : Ident) (ops : List AsmOperand), Statement.operation m ops ∈ sts ∧ opcodeOfMnemonic? m = some .wait ∧
      (textKinds .wait)[0]? = some .immediate ∧ ops[0]? = some (.number 256) ∧ ¬ Admits .immediate (.number 256)) ∧
    (∃ (sts : List Statement) (m : Ident) (ops : List AsmOperand), Statement.operation m ops ∈ sts ∧ opcodeOfMnemonic? m = some .jump ∧
      (textKinds .jump)[0]? = some .label ∧ ops[0]? = some (.labelRef ['a']) ∧ Statement.labelDecl ['a'] ∉ sts) :=
  ⟨⟨[.operation ['w', 'a', 'i', 't'] [.number 256]], _, _, List.mem_singleton.mpr rfl, by decide, rfl, rfl,
     fun h => absurd (show 256 ≤ 255 from h) (by decide)⟩,
   ⟨[.operation ['J', 'u', 'm', 'p'] [.labelRef ['a']]], _, _, List.mem_singleton.mpr rfl, by decide, rfl, rfl, by decide⟩⟩

theorem witness_LongTextIsRefused : 65535 < countOps (List.replicate 65536 (.operation ['N', 'O', 'P'] [])) := by
  rw [countOps, List.filter_replicate_of_pos rfl, List.length_replicate]; decide

/-- A run, on an instance with a map, that fetches a reserved no-op. -/
theorem witness_ReservedNoOpsExistOnlyInTheMap :
    (fresh false).run ≠ .running ∧ ∃ s, Reachable someTags s ∧ Fetches s (.reserved 0x92 [1, 2]) :=
  ⟨by decide, _, .host .execute _ _ (.new true (some [.reserved 0x92 [1, 2]]) _ rfl) rfl, rfl, _, rfl, rfl⟩

theorem witness_AssembledTextEncodesAndDecodesBack :
    ∃ p, assemble "@l push $ax; JUMP @l;".toList = .ok p ∧ p = [.push .ax, .jump 0 0] := ⟨_, by decide, rfl⟩

end Sys2Proof.Tests
end

section
/-! What one instruction can do, said once (`Effect`), what one step can do, and what each leaves unchanged. Every
whole-machine statement about `step` is derived from these. -/

namespace Sys2Proof.Machine

/-! ### The stack operations when they refuse -/

theorem stackPush_none {v : Byte} {s : State} (h : stackPush v s = none) : s.sp.val = 255 := by
  by_contra hne
  obtain ⟨t, ht⟩ := stackPush_of_room v (s := s) (by omega)
  simp [h] at ht

theorem stackPop_none {s : State} (h : stackPop s = none) : s.sp.val = 0 := by
  by_contra hne
  obtain ⟨v, t, ht⟩ := stackPop_of_held (s := s) (by omega)
  simp [h] at ht

theorem pushReturnAddress_none {ra : Word16} {s : State} (h : pushReturnAddress ra s = none) : 254 ≤ s.sp.val := by
  by_contra hlt
  obtain ⟨t, ht⟩ := pushReturnAddress_of_room ra (s := s) (by omega)
  simp [h] at ht

theorem popReturnAddress_none {s : State} (h : popReturnAddress s = none) : s.sp.val ≤ 1 := by
  by_contra hlt
  obtain ⟨ra, t, ht⟩ := popReturnAddress_of_held (s := s) (by omega)
  simp [h] at ht

/-! ### One instruction -/

/-- Everything an instruction's own rule can do from state `s` (spec/41 to 47), with the guard of each case. The states are
written as updates of `s`, so that a field no update names is the same by definition. -/
inductive Effect (s : State) : Instr → State → Prop where
  | add (d r : Reg) :
      Effect s (.add d r) (setZf (getReg s d + getReg s r == 0) (setReg d (getReg s d + getReg s r) s))
  | sub (d r : Reg) :
      Effect s (.sub d r) (setZf (getReg s d - getReg s r == 0) (setReg d (getReg s d - getReg s r) s))
  | cmp (a b : Reg) : Effect s (.cmp a b) (setZf (cmpZero (getReg s a) (getReg s b)) s)
  | setret (v : Byte) : Effect s (.setret v) (setReg .ret v s)
  | put (d : Reg) (v : Byte) : Effect s (.put d v) (setReg d v s)
  | mov (d r : Reg) : Effect s (.mov d r) (setReg d (getReg s r) s)
  | putmem (h l v : Byte) : Effect s (.putmem h l v) (memWrite (addrOf h l) v s)
  | push {r : Reg} {stk : Vector Byte 255} {sp : Fin 256} (hp : Pushed (getReg s r) s { s with stk := stk, sp := sp }) :
      Effect s (.push r) { s with stk := stk, sp := sp }
  | pushFull (r : Reg) (full : s.sp.val = 255) : Effect s (.push r) (raiseFault .stackOverflow s)
  | pop {r : Reg} {v : Byte} {sp : Fin 256} (hp : Popped v s { s with sp := sp }) :
      Effect s (.pop r) (setReg r v { s with sp := sp })
  | popEmpty (r : Reg) (empty : s.sp.val = 0) : Effect s (.pop r) (raiseFault .stackUnderflow s)
  | exit : Effect s .exit { s with cont := false }
  | nop : Effect s .nop s
  | jump (h l : Byte) : Effect s (.jump h l) (setPc (addrOf h l) s)
  | jzTaken (h l : Byte) (zero : s.zf = true) : Effect s (.jz h l) (setPc (addrOf h l) s)
  | jzNotTaken (h l : Byte) (nonzero : s.zf = false) : Effect s (.jz h l) s
  | call {h l : Byte} {stk : Vector Byte 255} {sp : Fin 256}
      (hp : PushedReturn (s.pc + 1) s { s with stk := stk, sp := sp }) :
      Effect s (.call h l) (setPc (addrOf h l) { s with stk := stk, sp := sp })
  | callFull (h l : Byte) (full : 254 ≤ s.sp.val) : Effect s (.call h l) (raiseFault .stackOverflow s)
  | ret {ra : Word16} {sp : Fin 256} (hp : PoppedReturn ra s { s with sp := sp }) :
      Effect s .ret (setPc ra { s with sp := sp })
  | retShort (short : s.sp.val ≤ 1) : Effect s .ret (raiseFault .stackUnderflow s)
  | render : Effect s .render (emit (.render (framebuffer s)) s)
  | wait (v : Byte) : Effect s (.wait v) (emit (.wait v) s)
  | reserved (tag : Byte) (ops : List Byte) : Effect s (.reserved tag ops) s

theorem execPush_effect {r : Reg} {s t : State} (h : execPush r s = .next t) : Effect s (.push r) t := by
  unfold execPush at h
  split at h
  case h_1 u hu =>
    cases h
    have hp := stackPush_some hu
    have hrest := hp.rest
    rw [hrest] at hp ⊢
    exact .push hp
  case h_2 hu => cases h; exact .pushFull r (stackPush_none hu)

theorem execPop_effect {r : Reg} {s t : State} (h : execPop r s = .next t) : Effect s (.pop r) t := by
  unfold execPop at h
  split at h
  case h_1 v u hu =>
    cases h
    have hp := stackPop_some hu
    have hrest := hp.rest
    rw [hrest] at hp ⊢
    exact .pop hp
  case h_2 hu => cases h; exact .popEmpty r (stackPop_none hu)

theorem execCall_effect {a b : Byte} {s t : State} (h : execCall a b s = .next t) : Effect s (.call a b) t := by
  unfold execCall at h
  split at h
  case h_1 u hu =>
    cases h
    have hp := pushReturnAddress_some hu
    have hrest := hp.rest
    rw [hrest] at hp ⊢
    exact .call hp
  case h_2 hu => cases h; exact .callFull a b (pushReturnAddress_none hu)

theorem execRet_effect {s t : State} (h : execRet s = .next t) : Effect s .ret t := by
  unfold execRet at h
  split at h
  case h_1 ra u hu =>
    cases h
    have hp := popReturnAddress_some hu
    have hrest := hp.rest
    rw [hrest] at hp ⊢
    exact .ret hp
  case h_2 hu => cases h; exact .retShort (popReturnAddress_none hu)

theorem execJz_effect {a b : Byte} {s t : State} (h : execJz a b s = .next t) : Effect s (.jz a b) t := by
  cases h
  cases hz : s.zf with
  | true => exact .jzTaken a b hz
  | false => exact .jzNotTaken a b hz

/-- The inversion of `exec`: whatever it answers is one of the cases of `Effect`. -/
theorem exec_effect {i : Instr} {s t : State} (h : exec i s = .next t) : Effect s i t := by
  cases i with
  | add d r => cases h; exact .add d r
  | sub d r => cases h; exact .sub d r
  | cmp a b => cases h; exact .cmp a b
  | setret v => cases h; exact .setret v
  | put d v => cases h; exact .put d v
  | mov d r => cases h; exact .mov d r
  | putmem a b v => cases h; exact .putmem a b v
  | push r => exact execPush_effect h
  | pop r => exact execPop_effect h
  | exit => cases h; exact .exit
  | nop => cases h; exact .nop
  | jump a b => cases h; exact .jump a b
  | jz a b => exact execJz_effect h
  | call a b => exact execCall_effect h
  | ret => exact execRet_effect h
  | render => cases h; exact .render
  | wait v => cases h; exact .wait v
  | reserved tag ops => cases h; exact .reserved tag ops

namespace Effect

variable {s t : State} {i : Instr}

/-- R24: only ADD, SUB and CMP write ZF. -/
theorem zf_eq_or_alu (h : Effect s i t) : t.zf = s.zf ∨ ∃ a b, i = .add a b ∨ i = .sub a b ∨ i = .cmp a b := by
  cases h with
  | add d r => exact .inr ⟨d, r, .inl rfl⟩
  | sub d r => exact .inr ⟨d, r, .inr (.inl rfl)⟩
  | cmp a b => exact .inr ⟨a, b, .inr (.inr rfl)⟩
  | _ => exact .inl rfl

/-- R23: an instruction writes at most one register. -/
theorem sameRegsExcept_one (h : Effect s i t) : ∃ r, SameRegsExcept [r] s t := by
  cases h with
  | add d r => exact ⟨d, sameRegsExcept_setReg s d _⟩
  | sub d r => exact ⟨d, sameRegsExcept_setReg s d _⟩
  | setret v => exact ⟨.ret, sameRegsExcept_setReg s .ret v⟩
  | put d v => exact ⟨d, sameRegsExcept_setReg s d v⟩
  | mov d r => exact ⟨d, sameRegsExcept_setReg s d _⟩
  | @pop r v _ _ => exact ⟨r, sameRegsExcept_setReg s r v⟩
  | _ => exact ⟨.ax, fun _ _ => rfl⟩

/-- R34, R39: the stack is kept, or memory is and the instruction is one of the four that work on the stack. -/
theorem sameStack_or_stackInstr (h : Effect s i t) :
    SameStack s t ∨ SameMem s t ∧ ((∃ r, i = .push r ∨ i = .pop r) ∨ (∃ a b, i = .call a b) ∨ i = .ret) := by
  cases h with
  | @push r _ _ _ => exact .inr ⟨fun _ => rfl, .inl ⟨r, .inl rfl⟩⟩
  | @pop r _ _ _ => exact .inr ⟨fun _ => rfl, .inl ⟨r, .inr rfl⟩⟩
  | @call a b _ _ _ => exact .inr ⟨fun _ => rfl, .inr (.inl ⟨a, b, rfl⟩)⟩
  | ret => exact .inr ⟨fun _ => rfl, .inr (.inr rfl)⟩
  | _ => exact .inl ⟨rfl, fun _ _ => rfl⟩

/-- R40, R75: no instruction writes the program; every case of `Effect` leaves that field alone. -/
theorem prog_eq (h : Effect s i t) : t.prog = s.prog := by
  cases h <;> rfl

/-- R27: EXIT clears CONT and nothing else writes it. -/
theorem cont_eq_or_exit (h : Effect s i t) : t.cont = s.cont ∨ t.cont = false ∧ i = .exit := by
  cases h with
  | exit => exact .inr ⟨rfl, rfl⟩
  | _ => exact .inl rfl

/-- R60: only PUTMEM writes memory, and it keeps the canonical form. -/
theorem mem_wf (h : Effect s i t) (hs : s.mem.wf) : t.mem.wf := by
  cases h with
  | putmem a b v => exact memWrite_wf hs _ v
  | _ => exact hs

/-- R422: a Render event is added only with the framebuffer's bytes. -/
theorem frameLength (h : Effect s i t) (hs : ∀ f, Event.render f ∈ s.history → f.length = Config.framebufferLen) :
    ∀ f, Event.render f ∈ t.history → f.length = Config.framebufferLen := by
  intro f hf
  cases h with
  | render =>
    rcases List.mem_append.mp hf with hf | hf
    · exact hs f hf
    · rw [Event.render.inj (List.mem_singleton.mp hf)]
      exact memRead_length s _ _
  | wait v =>
    rcases List.mem_append.mp hf with hf | hf
    · exact hs f hf
    · cases List.mem_singleton.mp hf
  | _ => exact hs f hf

/-- R30: the pc is kept, with MSET, unless the instruction sets the pc, and MSET with it. -/
theorem samePc_or_mset (h : Effect s i t) : SamePc s t ∨ t.mset = true := by
  cases h with
  | jump => exact .inr rfl
  | jzTaken => exact .inr rfl
  | call => exact .inr rfl
  | ret => exact .inr rfl
  | _ => exact .inl ⟨rfl, rfl⟩

end Effect

/-- The stack depths at which a fault of each kind is raised (R401: PUSH and CALL, POP and RETURN). -/
def FaultDepth (k : RunFault) (s : State) : Prop :=
  match k with
  | .stackOverflow => 254 ≤ s.sp.val
  | .stackUnderflow => s.sp.val ≤ 1

/-- R401, R402: the run state is kept, or the whole effect is a fault at a depth that raises it. -/
theorem Effect.run_eq_or_fault {s t : State} {i : Instr} (h : Effect s i t) :
    t.run = s.run ∨ ∃ k, t = raiseFault k s ∧ FaultDepth k s := by
  cases h with
  | pushFull r full => exact .inr ⟨_, rfl, by simp [FaultDepth, full]⟩
  | popEmpty r empty => exact .inr ⟨_, rfl, by simp [FaultDepth, empty]⟩
  | callFull a b full => exact .inr ⟨_, rfl, full⟩
  | retShort short => exact .inr ⟨_, rfl, short⟩
  | _ => exact .inl rfl

/-- In a run, an effect that ends faulted is the fault and nothing else. -/
theorem Effect.eq_raiseFault {s t : State} {i : Instr} {k : RunFault} (h : Effect s i t) (hrun : s.run = .running)
    (ht : t.run = .faulted k) : t = raiseFault k s := by
  rcases h.run_eq_or_fault with hr | ⟨k', rfl, -⟩
  · rw [ht, hrun] at hr; cases hr
  · cases ht; rfl

/-! ### The end of a step (R31, R32, R402) -/

@[simp] theorem afterInstr_regs (t : State) : (afterInstr t).regs = t.regs := by rw [afterInstr_rest]
@[simp] theorem afterInstr_zf (t : State) : (afterInstr t).zf = t.zf := by rw [afterInstr_rest]
@[simp] theorem afterInstr_cont (t : State) : (afterInstr t).cont = t.cont := by rw [afterInstr_rest]
@[simp] theorem afterInstr_sp (t : State) : (afterInstr t).sp = t.sp := by rw [afterInstr_rest]
@[simp] theorem afterInstr_stk (t : State) : (afterInstr t).stk = t.stk := by rw [afterInstr_rest]
@[simp] theorem afterInstr_mem (t : State) : (afterInstr t).mem = t.mem := by rw [afterInstr_rest]
@[simp] theorem afterInstr_prog (t : State) : (afterInstr t).prog = t.prog := by rw [afterInstr_rest]
@[simp] theorem afterInstr_history (t : State) : (afterInstr t).history = t.history := by rw [afterInstr_rest]
@[simp] theorem getReg_afterInstr (t : State) (r : Reg) : getReg (afterInstr t) r = getReg t r := by simp [getReg]
@[simp] theorem slot_afterInstr (t : State) (i : Nat) : slot (afterInstr t) i = slot t i := by simp [slot]
@[simp] theorem readMem_afterInstr (t : State) (a : Word16) : readMem (afterInstr t) a = readMem t a := by simp [readMem]

theorem afterInstr_of_faulted {t : State} {k : RunFault} (h : t.run = .faulted k) : afterInstr t = t := by
  simp [afterInstr, h]

theorem afterInstr_of_not_faulted {t : State} (h : ∀ k, t.run ≠ .faulted k) :
    afterInstr t = loopTest (endOfStep t) := by
  unfold afterInstr
  split
  case h_1 k hk => exact absurd hk (h k)
  all_goals rfl

/-- The end of the step and the loop test, as the claims write them. -/
theorem loopTest_endOfStep (t : State) :
    loopTest (endOfStep t) =
      { t with
        pc := if t.mset then t.pc else t.pc + 1
        mset := false
        run := if t.cont then t.run else .halted (getReg t .ret) } := by
  cases hm : t.mset <;> cases hc : t.cont <;> simp [loopTest, endOfStep, hm, hc, getReg]

theorem afterStep_afterInstr (t : State) : AfterStep t (afterInstr t) := by
  unfold AfterStep
  split
  case h_1 k hk => exact afterInstr_of_faulted hk
  all_goals
    rename_i h
    rw [afterInstr_of_not_faulted (by simp [h]), loopTest_endOfStep, h]

/-! ### The implicit halt (R411) -/

@[simp] theorem implicitHalt_zf (s : State) : (implicitHalt s).zf = s.zf := rfl
@[simp] theorem implicitHalt_cont (s : State) : (implicitHalt s).cont = s.cont := rfl
@[simp] theorem implicitHalt_prog (s : State) : (implicitHalt s).prog = s.prog := rfl
@[simp] theorem implicitHalt_run (s : State) : (implicitHalt s).run = .halted 255 := rfl

theorem sameRegsExcept_implicitHalt (s : State) : SameRegsExcept [.ret] s (implicitHalt s) :=
  sameRegsExcept_setReg s .ret _

theorem getReg_implicitHalt_ret (s : State) : getReg (implicitHalt s) .ret = 255 :=
  getReg_setReg_same s .ret _

theorem sameStack_implicitHalt (s : State) : SameStack s (implicitHalt s) := ⟨rfl, fun _ _ => rfl⟩

/-! ### One step (R32) -/

theorem Fetches.unique {s : State} {i j : Instr} (hi : Fetches s i) (hj : Fetches s j) : i = j := by
  obtain ⟨-, p, hp, hf⟩ := hi
  obtain ⟨-, q, hq, hg⟩ := hj
  cases hp.symm.trans hq
  exact Option.some.inj (hf.symm.trans hg)

theorem Fetches.step_eq {s t : State} {i : Instr} (h : Fetches s i) (ht : exec i s = .next t) :
    step s = .next (afterInstr t) := by
  obtain ⟨hrun, p, hp, hf⟩ := h
  exact step_of_exec hrun hp hf ht

/-- What a step can do: halt off the end of the program, or the fetched instruction's effect and the end of the step. -/
theorem step_cases {s t : State} (h : step s = .next t) :
    (t = implicitHalt s ∧ ∀ i, ¬ Fetches s i) ∨ ∃ i u, Fetches s i ∧ Effect s i u ∧ t = afterInstr u := by
  obtain ⟨hrun, p, hp, ⟨hf, rfl⟩ | ⟨i, u, hf, hu, rfl⟩⟩ := step_next h
  · refine .inl ⟨rfl, fun i ⟨_, q, hq, hg⟩ => ?_⟩
    cases hp.symm.trans hq
    simp [hf] at hg
  · exact .inr ⟨i, u, ⟨hrun, p, hp, hf⟩, exec_effect hu, rfl⟩

theorem fetchAt_eq_none {p : List Instr} {pc : Word16} : fetchAt p pc = none ↔ p.length ≤ pc.toNat :=
  List.getElem?_eq_none_iff

theorem fetchAt_lt {p : List Instr} {pc : Word16} {i : Instr} (h : fetchAt p pc = some i) : pc.toNat < p.length :=
  (List.getElem?_eq_some_iff.mp h).1

/-- In a run with a program every state has a next one. -/
theorem step_of_running {s : State} {p : List Instr} (hrun : s.run = .running) (hp : s.prog = some p) :
    ∃ t, step s = .next t := by
  cases hf : fetchAt p s.pc with
  | none => exact ⟨_, step_off_end hrun hp hf⟩
  | some i =>
    obtain ⟨u, hu⟩ := exec_next i s
    exact ⟨_, step_of_exec hrun hp hf hu⟩

end Sys2Proof.Machine
end

section
/-! The invariant is kept by every step: one lemma for each way a step can end (the implicit halt, a fault, an instruction
followed by the end of the step). -/

namespace Sys2Proof.Machine

theorem stateInv_implicitHalt {s : State} (h : StateInv s) : StateInv (implicitHalt s) where
  memory := h.memory
  programLength := h.programLength
  msetClear := h.msetClear
  runningHasProgram hr := by cases hr
  runningHasCont hr := by cases hr
  exitCode c hc := by cases hc; exact getReg_implicitHalt_ret s
  overflowDepth hr := by cases hr
  underflowDepth hr := by cases hr
  frameLength := h.frameLength

theorem stateInv_raiseFault {s : State} {k : RunFault} (h : StateInv s) (hk : FaultDepth k s) :
    StateInv (raiseFault k s) where
  memory := h.memory
  programLength := h.programLength
  msetClear := h.msetClear
  runningHasProgram hr := by cases hr
  runningHasCont hr := by cases hr
  exitCode c hc := by cases hc
  overflowDepth hr := by cases hr; exact hk
  underflowDepth hr := by cases hr; exact hk
  frameLength := h.frameLength

/-- After an instruction that ran without a fault, the end of the step clears MSET and the loop test leaves a run with CONT
or one halted with the byte in ReturnValue. -/
theorem stateInv_afterInstr {t : State} (hrun : t.run = .running) (hprog : t.prog.isSome) (hmem : t.mem.wf)
    (hlen : ∀ p, t.prog = some p → p.length ≤ Config.maxProgramLen)
    (hframe : ∀ f, Event.render f ∈ t.history → f.length = Config.framebufferLen) : StateInv (afterInstr t) := by
  rw [afterInstr_of_not_faulted (by simp [hrun]), loopTest_endOfStep, hrun]
  exact {
    memory := hmem
    programLength := hlen
    msetClear := rfl
    runningHasProgram := fun _ => hprog
    runningHasCont := by simp
    exitCode := by simp [ite_eq_iff, getReg]
    overflowDepth := by simp [ite_eq_iff]
    underflowDepth := by simp [ite_eq_iff]
    frameLength := hframe }

/-- Settles O10: a step is an implicit halt, a fault at its depth, or an instruction and the end of the step, and each keeps
the invariant. -/
theorem stepKeepsInvariant : Obligations.StepKeepsInvariant := by
  unfold Obligations.StepKeepsInvariant
  intro s t hs hstep
  obtain ⟨rfl, -⟩ | ⟨i, u, hf, he, rfl⟩ := step_cases hstep
  · exact stateInv_implicitHalt hs
  obtain hr | ⟨k, rfl, hk⟩ := he.run_eq_or_fault
  · refine stateInv_afterInstr (hr.trans hf.running) ?_ (he.mem_wf hs.memory) ?_ (he.frameLength hs.frameLength)
    · rw [he.prog_eq]; exact hs.runningHasProgram hf.running
    · rw [he.prog_eq]; exact hs.programLength
  · rw [afterInstr_of_faulted (raiseFault_run s k)]
    exact stateInv_raiseFault hs hk

end Sys2Proof.Machine
end

section
/-! Noninterference of the stack slots at and above SP (R37): the relation `SameBelowSp` as one other stack that agrees below
SP, and that each part of a step keeps it. -/

namespace Sys2Proof.Machine

/-- The two states differ in nothing but the stack, and the stacks agree below SP. -/
theorem sameBelowSp_iff {s t : State} :
    SameBelowSp s t ↔ ∃ k, t = { s with stk := k } ∧ ∀ i, i < s.sp.val → k[i]? = s.stk[i]? := by
  constructor
  · rintro ⟨hregs, hzf, hsp, hslots, hmem, hprog, hhist, ⟨hpc, hmset⟩, hcont, hrun⟩
    have hregs : t.regs = s.regs := Regs.ext_get fun r => hregs r (by simp)
    refine ⟨t.stk, ?_, hslots⟩
    cases t
    simp only [SameProg, SameHistory] at *
    subst_vars
    rfl
  · rintro ⟨k, rfl, hk⟩
    exact ⟨fun _ _ => rfl, rfl, rfl, hk, rfl, rfl, rfl, ⟨rfl, rfl⟩, ⟨rfl, rfl⟩⟩

theorem afterInstr_withStack (t : State) (k : Vector Byte 255) :
    afterInstr { t with stk := k } = { afterInstr t with stk := k } := by
  by_cases hf : ∃ f, t.run = .faulted f
  · obtain ⟨f, hf⟩ := hf
    rw [afterInstr_of_faulted hf, afterInstr_of_faulted (t := { t with stk := k }) hf]
  · have hf : ∀ f, t.run ≠ .faulted f := not_exists.mp hf
    rw [afterInstr_of_not_faulted hf, afterInstr_of_not_faulted (t := { t with stk := k }) hf]
    simp only [loopTest_endOfStep, getReg]

theorem SameBelowSp.afterInstr {s t : State} (h : SameBelowSp s t) : SameBelowSp (afterInstr s) (afterInstr t) := by
  obtain ⟨k, rfl, hk⟩ := sameBelowSp_iff.mp h
  exact sameBelowSp_iff.mpr ⟨k, afterInstr_withStack s k, by simpa using hk⟩

theorem SameBelowSp.implicitHalt {s t : State} (h : SameBelowSp s t) :
    SameBelowSp (implicitHalt s) (implicitHalt t) := by
  obtain ⟨k, rfl, hk⟩ := sameBelowSp_iff.mp h
  exact sameBelowSp_iff.mpr ⟨k, rfl, hk⟩

theorem SameBelowSp.fetches {s t : State} {i : Instr} (h : SameBelowSp s t) (hf : Fetches s i) : Fetches t i := by
  obtain ⟨k, rfl, -⟩ := sameBelowSp_iff.mp h
  exact ⟨hf.running, hf.fetched⟩

/-- Pushes of one byte onto two stacks that agree below SP give stacks that agree below the new SP. -/
theorem Pushed.sameBelowSp {v : Byte} {s s' t t' : State} (h : SameBelowSp s s') (ht : Pushed v s t)
    (ht' : Pushed v s' t') : SameBelowSp t t' := by
  have hsp : t'.sp = t.sp := Fin.ext (by rw [ht.sp, ht'.sp, h.sp])
  obtain ⟨k, rfl, hk⟩ := sameBelowSp_iff.mp h
  refine sameBelowSp_iff.mpr ⟨t'.stk, ?_, fun i hi => ?_⟩
  · rw [ht'.rest, ht.rest, ← hsp]
  · rw [ht.sp] at hi
    by_cases hs : i = s.sp.val
    · subst hs; exact ht'.stored.trans ht.stored.symm
    · exact (ht'.others i hs).trans ((hk i (by omega)).trans (ht.others i hs).symm)

/-- Pops from two stacks that agree below SP answer the same byte. -/
theorem Popped.sameBelowSp {v v' : Byte} {s s' t t' : State} (h : SameBelowSp s s') (ht : Popped v s t)
    (ht' : Popped v' s' t') : v' = v ∧ SameBelowSp t t' := by
  have hsp : t'.sp = t.sp := Fin.ext (by rw [ht.sp, ht'.sp, h.sp])
  obtain ⟨k, rfl, hk⟩ := sameBelowSp_iff.mp h
  have held := ht.held
  have hlow := ht.sp
  constructor
  · exact Option.some.inj (ht'.top.symm.trans ((hk (s.sp.val - 1) (by omega)).trans ht.top))
  · refine sameBelowSp_iff.mpr ⟨k, ?_, fun i hi => ?_⟩
    · rw [ht'.rest, ht.rest, ← hsp]
    · rw [ht.rest]; exact hk i (by omega)

/-- The return addresses that CALL pushes onto two stacks that agree below SP. -/
theorem PushedReturn.sameBelowSp {ra : Word16} {s s' t t' : State} (h : SameBelowSp s s') (ht : PushedReturn ra s t)
    (ht' : PushedReturn ra s' t') : SameBelowSp t t' := by
  have hsp : t'.sp = t.sp := Fin.ext (by rw [ht.sp, ht'.sp, h.sp])
  obtain ⟨k, rfl, hk⟩ := sameBelowSp_iff.mp h
  refine sameBelowSp_iff.mpr ⟨t'.stk, ?_, fun i hi => ?_⟩
  · rw [ht'.rest, ht.rest, ← hsp]
  · rw [ht.sp] at hi
    by_cases hlow : i = s.sp.val
    · subst hlow; exact ht'.low.trans ht.low.symm
    by_cases hhigh : i = s.sp.val + 1
    · subst hhigh; exact ht'.high.trans ht.high.symm
    · exact (ht'.others i hlow hhigh).trans ((hk i (by omega)).trans (ht.others i hlow hhigh).symm)

/-- The return addresses that RETURN pops from two stacks that agree below SP are the same. -/
theorem PoppedReturn.sameBelowSp {ra ra' : Word16} {s s' t t' : State} (h : SameBelowSp s s')
    (ht : PoppedReturn ra s t) (ht' : PoppedReturn ra' s' t') : ra' = ra ∧ SameBelowSp t t' := by
  have hsp : t'.sp = t.sp := Fin.ext (by rw [ht.sp, ht'.sp, h.sp])
  obtain ⟨k, rfl, hk⟩ := sameBelowSp_iff.mp h
  have held := ht.held
  have hshort := ht.sp
  constructor
  · have hhi : hiByte ra' = hiByte ra :=
      Option.some.inj (ht'.high.symm.trans ((hk (s.sp.val - 1) (by omega)).trans ht.high))
    have hlo : loByte ra' = loByte ra :=
      Option.some.inj (ht'.low.symm.trans ((hk (s.sp.val - 2) (by omega)).trans ht.low))
    rw [← addrOf_hiByte_loByte ra', hhi, hlo, addrOf_hiByte_loByte]
  · refine sameBelowSp_iff.mpr ⟨k, ?_, fun i hi => ?_⟩
    · rw [ht'.rest, ht.rest, ← hsp]
    · rw [ht.rest]; exact hk i (by omega)

theorem SameBelowSp.setReg {s t : State} (h : SameBelowSp s t) (r : Reg) (v : Byte) :
    SameBelowSp (setReg r v s) (setReg r v t) := by
  obtain ⟨k, rfl, hk⟩ := sameBelowSp_iff.mp h
  exact sameBelowSp_iff.mpr ⟨k, rfl, hk⟩

theorem SameBelowSp.setPc {s t : State} (h : SameBelowSp s t) (a : Word16) : SameBelowSp (setPc a s) (setPc a t) := by
  obtain ⟨k, rfl, hk⟩ := sameBelowSp_iff.mp h
  exact sameBelowSp_iff.mpr ⟨k, rfl, hk⟩

/-- One instruction run from two states that agree below SP takes the same case of its rule in both (the guards read only SP,
ZF and what lies below SP), and gives states that agree below SP. -/
theorem Effect.sameBelowSp {i : Instr} {s s' t t' : State} (h : SameBelowSp s s') (ht : Effect s i t)
    (ht' : Effect s' i t') : SameBelowSp t t' := by
  obtain ⟨k, rfl, hk⟩ := sameBelowSp_iff.mp h
  cases ht with
  | push hp =>
    cases ht' with
    | push hp' => exact hp.sameBelowSp h hp'
    | pushFull _ full => exact absurd full (Nat.ne_of_lt hp.room)
  | pushFull _ full =>
    cases ht' with
    | push hp' => exact absurd full (Nat.ne_of_lt hp'.room)
    | pushFull => exact sameBelowSp_iff.mpr ⟨k, rfl, hk⟩
  | pop hp =>
    cases ht' with
    | pop hp' =>
      obtain ⟨rfl, hsame⟩ := hp.sameBelowSp h hp'
      exact hsame.setReg _ _
    | popEmpty _ empty => exact absurd empty (Nat.ne_of_gt hp.held)
  | popEmpty _ empty =>
    cases ht' with
    | pop hp' => exact absurd empty (Nat.ne_of_gt hp'.held)
    | popEmpty => exact sameBelowSp_iff.mpr ⟨k, rfl, hk⟩
  | jzTaken _ _ zero =>
    cases ht' with
    | jzTaken => exact sameBelowSp_iff.mpr ⟨k, rfl, hk⟩
    | jzNotTaken _ _ nonzero => exact absurd (zero.symm.trans nonzero) (by decide)
  | jzNotTaken _ _ nonzero =>
    cases ht' with
    | jzTaken _ _ zero => exact absurd (zero.symm.trans nonzero) (by decide)
    | jzNotTaken => exact h
  | call hp =>
    cases ht' with
    | call hp' => exact (hp.sameBelowSp h hp').setPc _
    | callFull _ _ full => exact absurd hp.room (Nat.not_lt.mpr full)
  | callFull _ _ full =>
    cases ht' with
    | call hp' => exact absurd hp'.room (Nat.not_lt.mpr full)
    | callFull => exact sameBelowSp_iff.mpr ⟨k, rfl, hk⟩
  | ret hp =>
    cases ht' with
    | ret hp' =>
      obtain ⟨rfl, hsame⟩ := hp.sameBelowSp h hp'
      exact hsame.setPc _
    | retShort short => exact absurd short (Nat.not_le.mpr hp.held)
  | retShort short =>
    cases ht' with
    | ret hp' => exact absurd short (Nat.not_le.mpr hp'.held)
    | retShort => exact sameBelowSp_iff.mpr ⟨k, rfl, hk⟩
  | _ => cases ht'; exact sameBelowSp_iff.mpr ⟨k, rfl, hk⟩

/-- Settles O46: both states fetch the same instruction or none, and instruction, end of step and implicit halt each keep
`SameBelowSp`. -/
theorem slotsAboveSpAreInvisible : Obligations.SlotsAboveSpAreInvisible := by
  unfold Obligations.SlotsAboveSpAreInvisible
  intro s s' t h hstep
  obtain ⟨hrun, p, hp, ⟨hf, rfl⟩ | ⟨i, u, hf, hu, rfl⟩⟩ := step_next hstep
  · have hstep' : step s' = .next (implicitHalt s') :=
      step_off_end (h.run.2.trans hrun) (h.prog.trans hp) (h.pc.1 ▸ hf)
    exact ⟨_, hstep', h.implicitHalt⟩
  · obtain ⟨u', hu'⟩ := exec_next i s'
    have hf' : Fetches s' i := h.fetches ⟨hrun, p, hp, hf⟩
    exact ⟨_, hf'.step_eq hu', ((exec_effect hu).sameBelowSp h (exec_effect hu')).afterInstr⟩

end Sys2Proof.Machine
end

section
/-! The instruction cycle (R31, R32), and what a step leaves unchanged unless it runs one of the instructions named. -/

namespace Sys2Proof.Machine

/-! ### What each instruction may change, for a whole step -/

/-- Settles O39: only the ALU's effects write ZF, and neither the end of the step nor the implicit halt does. -/
theorem onlyAluInstructionsChangeZf : Obligations.OnlyAluInstructionsChangeZf := by
  unfold Obligations.OnlyAluInstructionsChangeZf
  intro s t hstep hzf
  obtain ⟨rfl, -⟩ | ⟨i, u, hf, he, rfl⟩ := step_cases hstep
  · exact absurd (implicitHalt_zf s) hzf
  · rw [afterInstr_zf] at hzf
    obtain ⟨a, b, hi⟩ := he.zf_eq_or_alu.resolve_left hzf
    obtain rfl | rfl | rfl := hi
    · exact ⟨a, b, .inl hf⟩
    · exact ⟨a, b, .inr (.inl hf)⟩
    · exact ⟨a, b, .inr (.inr hf)⟩

/-- Settles O40: the implicit halt writes ReturnValue, an instruction at most its destination, the end of the step none. -/
theorem atMostOneRegisterPerStep : Obligations.AtMostOneRegisterPerStep := by
  unfold Obligations.AtMostOneRegisterPerStep
  intro s t hstep
  obtain ⟨rfl, -⟩ | ⟨i, u, -, he, rfl⟩ := step_cases hstep
  · exact ⟨.ret, sameRegsExcept_implicitHalt s⟩
  · obtain ⟨r, hr⟩ := he.sameRegsExcept_one
    exact ⟨r, fun q hq => (getReg_afterInstr u q).trans (hr q hq)⟩

theorem SameStack.afterInstr {s t : State} (h : SameStack s t) : SameStack s (afterInstr t) :=
  ⟨(afterInstr_sp t).trans h.1, fun i hi => (slot_afterInstr t i).trans (h.2 i hi)⟩

theorem SameMem.afterInstr {s t : State} (h : SameMem s t) : SameMem s (afterInstr t) :=
  fun a => (readMem_afterInstr t a).trans (h a)

/-- Settles O41: an effect keeps the stack or is that of a stack instruction, and the end of the step touches neither stack
nor memory. -/
theorem onlyStackInstructionsTouchTheStack : Obligations.OnlyStackInstructionsTouchTheStack := by
  unfold Obligations.OnlyStackInstructionsTouchTheStack
  intro s t hstep hstack
  obtain ⟨rfl, -⟩ | ⟨i, u, hf, he, rfl⟩ := step_cases hstep
  · exact absurd (sameStack_implicitHalt s) hstack
  · obtain ⟨hmem, hi⟩ := he.sameStack_or_stackInstr.resolve_left fun h => hstack h.afterInstr
    refine ⟨hmem.afterInstr, ?_⟩
    obtain ⟨r, rfl | rfl⟩ | ⟨a, b, rfl⟩ | rfl := hi
    · exact .inl ⟨r, .inl hf⟩
    · exact .inl ⟨r, .inr hf⟩
    · exact .inr (.inl ⟨a, b, hf⟩)
    · exact .inr (.inr hf)

/-- Settles O43: neither an instruction, nor the end of the step, nor the implicit halt writes the program. -/
theorem noStepChangesTheProgram : Obligations.NoStepChangesTheProgram := by
  unfold Obligations.NoStepChangesTheProgram
  intro s t hstep
  obtain ⟨rfl, -⟩ | ⟨i, u, -, he, rfl⟩ := step_cases hstep
  · exact implicitHalt_prog s
  · exact (afterInstr_prog u).trans he.prog_eq

/-- Settles O44: EXIT is the one instruction that writes CONT, and a state fetches only one instruction. -/
theorem onlyExitClearsCont : Obligations.OnlyExitClearsCont := by
  unfold Obligations.OnlyExitClearsCont
  intro s t hstep
  obtain ⟨rfl, hnone⟩ | ⟨i, u, hf, he, rfl⟩ := step_cases hstep
  · exact ⟨.inl (implicitHalt_cont s), fun hexit => absurd hexit (hnone _)⟩
  · rw [afterInstr_cont]
    constructor
    · obtain hc | ⟨hc, rfl⟩ := he.cont_eq_or_exit
      · exact .inl hc
      · exact .inr ⟨hc, hf⟩
    · intro hexit
      obtain rfl := hf.unique hexit
      cases he
      rfl

/-! ### The cycle -/

/-- Settles O37: in a run a step answers a next state, or `noProgram` without a program, and outside a run only
`noRunInProgress`. -/
theorem noStepOutsideARun : Obligations.NoStepOutsideARun := by
  unfold Obligations.NoStepOutsideARun
  constructor
  · intro s
    constructor
    · intro hrun
      unfold step
      split
      case h_4 hr => exact absurd hr hrun
      all_goals rfl
    · intro hstep hrun
      cases hp : s.prog with
      | none => simp [step, hrun, hp] at hstep
      | some p =>
        obtain ⟨t, ht⟩ := step_of_running hrun hp
        rw [ht] at hstep
        cases hstep
  · intro s hs hrun
    obtain ⟨p, hp⟩ := Option.isSome_iff_exists.mp (hs.runningHasProgram hrun)
    exact step_of_running hrun hp

/-- Settles O35: off the end the step is the implicit halt, otherwise the fetched instruction, which always answers a next
state (`exec_next`), and then `afterInstr`. -/
theorem instructionCycleOfARun : Obligations.InstructionCycleOfARun := by
  unfold Obligations.InstructionCycleOfARun
  intro s p hrun hp
  constructor
  · intro hend
    exact ⟨implicitHalt s, step_off_end hrun hp (fetchAt_eq_none.mpr hend), implicitHalt_run s,
      getReg_implicitHalt_ret s, implicitHalt_zf s, implicitHalt_cont s, sameRegsExcept_implicitHalt s,
      sameStack_implicitHalt s, fun _ => rfl, implicitHalt_prog s, rfl, rfl, rfl⟩
  · intro hlt
    have hf : fetchAt p s.pc = some p[s.pc.toNat] := List.getElem?_eq_getElem hlt
    obtain ⟨t, ht⟩ := exec_next p[s.pc.toNat] s
    exact ⟨_, t, afterInstr t, hf, ht, step_of_exec hrun hp hf ht, afterStep_afterInstr t⟩

/-- R33, D3: a program has at most 65,535 instructions, so the pc after a fetched one does not wrap. -/
theorem Fetches.pc_succ_toNat {s : State} {i : Instr} (hs : StateInv s) (h : Fetches s i) :
    (s.pc + 1).toNat = s.pc.toNat + 1 := by
  obtain ⟨-, p, hp, hf⟩ := h
  have hlt : s.pc.toNat < p.length := fetchAt_lt hf
  have hlen : p.length ≤ 65535 := hs.programLength p hp
  exact BitVec.toNat_add_of_lt (show s.pc.toNat + 1 < 2 ^ 16 by omega)

/-- Settles O36: the instruction kept the pc with MSET clear, or set both (`Effect.samePc_or_mset`); a fault is
`raiseFault`, which the end of the step leaves alone. -/
theorem endOfStepAdvancesUnlessSet : Obligations.EndOfStepAdvancesUnlessSet := by
  unfold Obligations.EndOfStepAdvancesUnlessSet
  intro s t i hs hf ht
  have he := exec_effect ht
  have hstep := hf.step_eq ht
  constructor
  · intro hnot
    rw [afterInstr_of_not_faulted hnot, loopTest_endOfStep] at hstep
    refine ⟨_, hstep, rfl, fun hm => ?_, fun hm => by simp [hm]⟩
    obtain ⟨hpc, -⟩ := he.samePc_or_mset.resolve_right (by simp [hm])
    simpa [hm, hpc] using hf.pc_succ_toNat hs
  · intro k hk
    obtain rfl := he.eq_raiseFault hf.running hk
    rw [afterInstr_of_faulted hk] at hstep
    exact ⟨hstep, raiseFault_pc s k⟩

end Sys2Proof.Machine
end

section
/-! The state at construction (R42, R500), and pushes from an empty stack (R34, R35). -/

namespace Sys2Proof.Machine

/-! ### Construction -/

theorem getReg_fresh (zfInit : Bool) (p : Option (List Instr)) (r : Reg) : getReg (State.fresh zfInit p) r = 0 := by
  cases r <;> rfl

theorem slot_fresh (zfInit : Bool) (p : Option (List Instr)) {i : Nat} (h : i < 255) :
    slot (State.fresh zfInit p) i = some 0 := by
  simp [slot, State.fresh, h]

theorem hostNew_of_wf {rt : ReservedTags} {p : List Instr} (zfInit : Bool) (h : Program.wf rt p = true) :
    hostNew rt zfInit (some p) = .ok (State.fresh zfInit (some p)) := by
  simp only [hostNew, acceptProgram_eq_ok.mpr ⟨rfl, h⟩]
  rfl

/-- Settles O8: a well-formed initial program is accepted, and the answer is `State.fresh`. -/
theorem constructionLeavesTheListedValues : Obligations.ConstructionLeavesTheListedValues := by
  unfold Obligations.ConstructionLeavesTheListedValues
  intro rt zfInit p hp
  exact ⟨State.fresh zfInit (some p), hostNew_of_wf zfInit hp, getReg_fresh zfInit _, rfl, rfl, rfl, rfl, rfl,
    fun _ hi => slot_fresh zfInit _ hi, fun _ => rfl, rfl, rfl, rfl⟩

/-- A fresh state whose program, if it has one, is not too long meets the invariant. -/
theorem stateInv_fresh (zfInit : Bool) {p : Option (List Instr)}
    (hp : ∀ q, p = some q → q.length ≤ Config.maxProgramLen) : StateInv (State.fresh zfInit p) where
  memory := reset_memory_wf
  programLength := hp
  msetClear := rfl
  runningHasProgram h := by cases h
  runningHasCont h := by cases h
  exitCode _ h := by cases h
  overflowDepth h := by cases h
  underflowDepth h := by cases h
  frameLength _ h := by cases h

/-- Settles O9: `State.reset` is the fresh state with the model's own `zf_init`. -/
theorem constructionMeetsInvariant : Obligations.ConstructionMeetsInvariant := by
  unfold Obligations.ConstructionMeetsInvariant
  have hnone : ∀ zfInit, StateInv (State.fresh zfInit none) := fun zfInit => stateInv_fresh zfInit (by simp)
  exact ⟨hnone, hnone Config.zfInit⟩

/-! ### A sequence of pushes -/

/-- Pushes that fit succeed, move SP up by their number, keep the slots below and lay the bytes above in push order. -/
theorem foldlM_stackPush_of_room (vs : List Byte) (s : State) (h : s.sp.val + vs.length ≤ 255) :
    ∃ t, vs.foldlM (fun u v => stackPush v u) s = some t ∧ t.sp.val = s.sp.val + vs.length ∧
      (∀ i, i < s.sp.val → slot t i = slot s i) ∧ ∀ i, i < vs.length → slot t (s.sp.val + i) = vs[i]? := by
  induction vs generalizing s with
  | nil => exact ⟨s, rfl, rfl, fun _ _ => rfl, fun i hi => absurd hi (Nat.not_lt_zero i)⟩
  | cons v vs ih =>
    rw [List.length_cons] at h
    obtain ⟨u, hu⟩ := stackPush_of_room v (s := s) (by omega)
    have pu := stackPush_some hu
    have hsp := pu.sp
    obtain ⟨t, ht, htsp, hbelow, habove⟩ := ih u (by omega)
    refine ⟨t, by simp [hu, ht], by rw [htsp, hsp, List.length_cons]; omega, fun i hi => ?_, fun i hi => ?_⟩
    · rw [hbelow i (by omega), pu.others i (by omega)]
    · cases i with
      | zero => rw [Nat.add_zero, hbelow _ (by omega), pu.stored]; rfl
      | succ j =>
        rw [List.length_cons] at hi
        rw [List.getElem?_cons_succ, ← habove j (by omega), hsp]
        congr 1
        omega

/-- A push sequence that does not fit has a push that the full stack refuses. -/
theorem foldlM_stackPush_full (vs : List Byte) (s : State) (h : 255 < s.sp.val + vs.length) :
    vs.foldlM (fun u v => stackPush v u) s = none := by
  induction vs generalizing s with
  | nil => rw [List.length_nil] at h; omega
  | cons v vs ih =>
    cases hu : stackPush v s with
    | none => simp [hu]
    | some u =>
      have hsp := (stackPush_some hu).sp
      rw [List.length_cons] at h
      simp [hu, ih u (by omega)]

/-- Settles O21, as the two lemmas on push sequences at SP = 0. -/
theorem emptyStackTakesExactly255Pushes : Obligations.EmptyStackTakesExactly255Pushes := by
  unfold Obligations.EmptyStackTakesExactly255Pushes
  intro vs s hsp
  have hsp : s.sp.val = 0 := by rw [hsp]; rfl
  constructor
  · intro hlen
    obtain ⟨t, ht, htsp, -, habove⟩ := foldlM_stackPush_of_room vs s (by omega)
    exact ⟨t, ht, by rw [htsp, hsp, Nat.zero_add], by simpa [hsp] using habove⟩
  · intro hlen
    exact foldlM_stackPush_full vs s (by omega)

end Sys2Proof.Machine
end

section
/-! The decoder reads back what the encoder writes (R110, R111), and so a step of a loaded image runs the instruction whose
bytes stand at the pc's place. -/

namespace Sys2Proof

/-! ### The formats with registers, on the bytes of registers -/

@[simp] theorem decodeFR_code (c : Reg → Instr) (k : Nat) (r : Reg) (rest : List Byte) :
    decodeFR c k (r.code :: rest) = .ok (c r, rest) := by
  simp only [decodeFR, decodeReg_code]
  rfl

@[simp] theorem decodeFRR_code (c : Reg → Reg → Instr) (k : Nat) (d r : Reg) (rest : List Byte) :
    decodeFRR c k (d.code :: r.code :: rest) = .ok (c d r, rest) := by
  simp only [decodeFRR, decodeReg_code]
  rfl

@[simp] theorem decodeFRI_code (c : Reg → Byte → Instr) (k : Nat) (d : Reg) (i : Byte) (rest : List Byte) :
    decodeFRI c k (d.code :: i :: rest) = .ok (c d i, rest) := by
  simp only [decodeFRI, decodeReg_code]
  rfl

@[simp] theorem decodeReserved_append (t : Byte) (k : Nat) (ops rest : List Byte) :
    decodeReserved t ops.length k (ops ++ rest) = .ok (.reserved t ops, rest) := by
  simp [decodeReserved]

/-! ### One instruction and a whole image -/

/-- R110: the decoder on an encoding, whatever bytes follow it. -/
theorem decodeOne_encode (rt : ReservedTags) (k : Nat) {i : Instr} (rest : List Byte) (h : i.wf rt = true) :
    decodeOne rt k (encode i ++ rest) = .ok (i, rest) := by
  cases i with
  | reserved t ops =>
    simp only [Instr.wf, Bool.and_eq_true, decide_eq_true_eq] at h
    obtain ⟨htag, harity⟩ := h
    simp only [encode, List.cons_append, decodeOne, htag, harity, decodeReserved_append]
  | add | sub | mov | cmp => simp [encode, decodeOperands]
  | push | pop => simp [encode, decodeOperands]
  | put => simp [encode, decodeOperands]
  | setret | wait => simp [encode, decodeOperands, decodeFI]
  | putmem => simp [encode, decodeOperands, decodeFAI]
  | jump | jz | call => simp [encode, decodeOperands, decodeFA]
  | exit | nop | ret | render => simp [encode, decodeOperands, decodeF0]

theorem encode_eq_cons (i : Instr) : ∃ b bs, encode i = b :: bs := by
  cases i <;> exact ⟨_, _, rfl⟩

/-- R111: with fuel for its bytes the loop reads back the encodings of well-formed instructions. -/
theorem decodeLoop_encodeProgram (rt : ReservedTags) (p : List Instr) (hp : ∀ i ∈ p, i.wf rt = true) (fuel k : Nat)
    (hfuel : (encodeProgram p).length ≤ fuel) : decodeLoop rt fuel k (encodeProgram p) = .ok p := by
  induction p generalizing fuel k with
  | nil => simp [encodeProgram, decodeLoop]
  | cons i p ih =>
    have hcons : encodeProgram (i :: p) = encode i ++ encodeProgram p := rfl
    have hi : decodeOne rt k (encode i ++ encodeProgram p) = .ok (i, encodeProgram p) :=
      decodeOne_encode rt k _ (hp i (by simp))
    obtain ⟨b, bs, hb⟩ := encode_eq_cons i
    rw [hcons] at hfuel ⊢
    rw [hb, List.cons_append] at hfuel hi ⊢
    rw [List.length_cons, List.length_append] at hfuel
    cases fuel with
    | zero => omega
    | succ fuel =>
      have hrest := ih (fun j hj => hp j (by simp [hj])) fuel (k + i.size) (by omega)
      simp only [decodeLoop, hi]
      show (decodeLoop rt fuel (k + i.size) (encodeProgram p) >>= fun q => pure (i :: q)) = .ok (i :: p)
      rw [hrest]
      rfl

/-- R112, one direction: the image of a well-formed program decodes to it. -/
theorem decodeImage_encodeProgram {rt : ReservedTags} {p : List Instr} (h : Program.wf rt p = true) :
    decodeImage rt (encodeProgram p) = .ok p := by
  simp only [Program.wf, Bool.and_eq_true, List.all_eq_true, decide_eq_true_eq] at h
  obtain ⟨hwf, hlen⟩ := h
  rw [decodeImage, decodeLoop_encodeProgram rt p hwf _ 0 le_rfl]
  exact Machine.checkLength_eq_ok.mpr ⟨rfl, hlen⟩

end Sys2Proof

namespace Sys2Proof.Machine

/-- Settles O34: the image decodes to the encoded instructions, the pc is at `i`, so that is what the step fetches. -/
theorem stepRunsTheEncodedInstruction : Obligations.StepRunsTheEncodedInstruction := by
  unfold Obligations.StepRunsTheEncodedInstruction
  intro rt before after i p s t hwf himage hprog hrun hpc ht
  have hencode : encodeProgram before ++ encode i ++ encodeProgram after = encodeProgram (before ++ i :: after) := by
    simp [encodeProgram]
  rw [hencode, decodeImage_encodeProgram hwf] at himage
  cases himage
  have hf : fetchAt (before ++ i :: after) s.pc = some i := by simp [fetchAt, hpc]
  exact ⟨_, step_of_exec hrun hprog hf ht, afterStep_afterInstr t⟩

end Sys2Proof.Machine
end

section
/-! Data memory: what one instruction may do to it (R61, R63), memory as an array of bytes (R60, R63), the pixels of the
framebuffer (R66, R67), and noninterference: no step carries memory, or the events already sent, into the rest of the
state (R39, R61). -/

namespace Sys2Proof.Machine

/-! ### The canonical form is determined by the reads -/

/-- In canonical form the cells are the addresses that do not read as unlisted, each with its byte. -/
theorem Memory.mem_iff_read {m : Memory} (hm : m.wf) {c : Host.Cell} :
    c ∈ m ↔ c.2 ≠ Memory.unlisted ∧ m.read c.1 = c.2 := by
  obtain ⟨hrise, hcells⟩ := hm
  induction m with
  | nil => simp [Memory.read, eq_comm]
  | cons d m ih =>
    obtain ⟨a, v⟩ := d
    obtain ⟨a', v'⟩ := c
    obtain ⟨hlt, hrise⟩ := List.pairwise_cons.mp hrise
    have hv : v ≠ Memory.unlisted := (hcells (a, v) (by simp)).2
    have ih := ih hrise fun c hc => hcells c (List.mem_cons_of_mem _ hc)
    by_cases ha : a' = a
    · subst ha
      have hnot : (a', v') ∉ m := fun hc => Nat.lt_irrefl a' (hlt _ hc)
      simp only [List.mem_cons, hnot, or_false, Prod.mk.injEq, true_and, Memory.read, if_true]
      exact ⟨fun h => ⟨h ▸ hv, h.symm⟩, fun h => h.2.symm⟩
    · simp only [List.mem_cons, Prod.mk.injEq, ha, false_and, false_or, Memory.read, if_false, ih]

/-- A memory in canonical form has the cells of every other one that reads the same at the 16-bit addresses. -/
theorem Memory.subset_of_read_eq {m n : Memory} (hm : m.wf) (hn : n.wf)
    (h : ∀ a : Word16, m.read a.toNat = n.read a.toNat) : m ⊆ n := by
  intro c hc
  obtain ⟨hlisted, hread⟩ := (Memory.mem_iff_read hm).mp hc
  have ha : (BitVec.ofNat 16 c.1).toNat = c.1 := Nat.mod_eq_of_lt (hm.2 c hc).1
  have hsame := h (BitVec.ofNat 16 c.1)
  rw [ha] at hsame
  exact (Memory.mem_iff_read hn).mpr ⟨hlisted, hsame.symm.trans hread⟩

/-- R60: cells in rising order of address are determined by their set, and that set by the reads. -/
theorem Memory.eq_of_read_eq {m n : Memory} (hm : m.wf) (hn : n.wf)
    (h : ∀ a : Word16, m.read a.toNat = n.read a.toNat) : m = n := by
  have irrefl : Std.Irrefl fun c d : Host.Cell => c.1 < d.1 := ⟨fun _ => Nat.lt_irrefl _⟩
  have antisymm : Std.Antisymm fun c d : Host.Cell => c.1 < d.1 := ⟨fun _ _ hcd hdc => absurd hdc (Nat.lt_asymm hcd)⟩
  exact List.Subset.antisymm_of_pairwise hm.1 hn.1 (Memory.subset_of_read_eq hm hn h)
    (Memory.subset_of_read_eq hn hm fun a => (h a).symm)

/-- Settles O27: a write is read back by `Memory.read_write`, and the canonical form holds nothing but the reads. -/
theorem memoryIsAnArrayOfBytes : Obligations.MemoryIsAnArrayOfBytes := by
  unfold Obligations.MemoryIsAnArrayOfBytes
  refine ⟨fun s a b v hs => ⟨memWrite_wf hs a v, ?_⟩, fun m n => Memory.eq_of_read_eq⟩
  simpa [readMem, BitVec.toNat_inj] using Memory.read_write s.mem hs.1 a.toNat b.toNat v

/-! ### Only PUTMEM writes -/

/-- No write reaches another address, whether or not the memory is in canonical form. -/
theorem Memory.read_write_other (m : Memory) {a b : Nat} (v : Byte) (h : b ≠ a) :
    (Memory.write m a v).read b = m.read b := by
  induction m with
  | nil => by_cases hv : v = Memory.unlisted <;> simp [Memory.write, Memory.read, hv, h]
  | cons c m ih =>
    obtain ⟨e, w⟩ := c
    simp only [Memory.write]
    split
    · by_cases hv : v = Memory.unlisted <;> simp [Memory.read, hv, h]
    · split
      · rename_i hae
        by_cases hv : v = Memory.unlisted <;> simp [Memory.read, hv, ← hae, h]
      · simp only [Memory.read, ih]

theorem readMem_memWrite_other (s : State) {a b : Word16} (v : Byte) (h : b ≠ a) :
    readMem (memWrite a v s) b = readMem s b :=
  Memory.read_write_other s.mem v fun hb => h (BitVec.eq_of_toNat_eq hb)

/-- R63: an instruction changes what an address reads as only as a PUTMEM to that address. -/
theorem Effect.readMem_eq_or_putmem {s t : State} {i : Instr} (h : Effect s i t) (a : Word16) :
    readMem t a = readMem s a ∨ ∃ hi lo v, i = .putmem hi lo v ∧ a = addrOf hi lo := by
  cases h with
  | putmem hi lo v =>
    by_cases ha : a = addrOf hi lo
    · exact .inr ⟨hi, lo, v, rfl, ha⟩
    · exact .inl (readMem_memWrite_other s v ha)
  | _ => exact .inl rfl

/-- Settles O42: neither the implicit halt nor the end of a step writes memory, so the change is the fetched instruction's. -/
theorem onlyPutmemChangesMemory : Obligations.OnlyPutmemChangesMemory := by
  unfold Obligations.OnlyPutmemChangesMemory
  intro s t a hstep hne
  obtain ⟨rfl, -⟩ | ⟨i, u, hf, he, rfl⟩ := step_cases hstep
  · exact absurd rfl hne
  · rw [readMem_afterInstr] at hne
    obtain ⟨hi, lo, v, rfl, rfl⟩ := (he.readMem_eq_or_putmem a).resolve_left hne
    exact ⟨hi, lo, v, hf, addrOf_toNat hi lo⟩

/-! ### Pixels -/

theorem pixelBase_toNat (i : Fin 40) (j : Fin 32) : (pixelBase i j).toNat = 0x8000 + (i.val * 96 + j.val * 3) := by
  have hbase : Config.framebufferBase.toNat = 0x8000 := rfl
  rw [pixelBase, BitVec.toNat_add, BitVec.toNat_ofNat, hbase]
  omega

/-- R67: `n = i * 96 + j * 3 + k` has one solution in columns, rows and channels for each byte of the framebuffer. -/
theorem existsUnique_pixel_of_offset {n : Nat} (hn : n < 3840) :
    ∃ (i : Fin 40) (j : Fin 32) (k : Fin 3), i.val * 96 + j.val * 3 + k.val = n ∧
      ∀ (i' : Fin 40) (j' : Fin 32) (k' : Fin 3), i'.val * 96 + j'.val * 3 + k'.val = n → i' = i ∧ j' = j ∧ k' = k :=
  ⟨⟨n / 96, by omega⟩, ⟨n % 96 / 3, by omega⟩, ⟨n % 3, by omega⟩, by simp only; omega,
    fun i' j' k' h => ⟨Fin.ext (by simp only; omega), Fin.ext (by simp only; omega), Fin.ext (by simp only; omega)⟩⟩

/-- R64, R66: byte `n` of the framebuffer is what memory holds at 0x8000 + n. -/
theorem framebuffer_getElem? (s : State) {n : Nat} (hn : n < 3840) {a : Word16} (ha : a.toNat = 0x8000 + n) :
    (framebuffer s)[n]? = some (readMem s a) := by
  rw [readMem, ha]
  exact memRead_getElem? s Config.framebufferBase hn

/-- Settles O31: the offsets `i * 96 + j * 3 + k` count the framebuffer's bytes once each, and RENDER's event holds the
framebuffer. -/
theorem pixelsTileTheFramebuffer : Obligations.PixelsTileTheFramebuffer := by
  unfold Obligations.PixelsTileTheFramebuffer
  constructor
  · intro n hn
    obtain ⟨i, j, k, hijk, hunique⟩ := existsUnique_pixel_of_offset hn
    refine ⟨i, j, k, by rw [pixelBase_toNat]; omega, fun i' j' k' h => hunique i' j' k' ?_⟩
    rw [pixelBase_toNat] at h
    omega
  · intro s t f ht hhist i j k
    cases ht
    have hf : framebuffer s = f := by simpa using hhist
    rw [← hf]
    refine framebuffer_getElem? s (by omega) ?_
    rw [BitVec.toNat_add, pixelBase_toNat, BitVec.toNat_ofNat]
    omega

/-! ### Memory never reaches the core -/

/-- The state with another data memory and another history of events. -/
def withMemory (m : Memory) (e : List Event) (s : State) : State := { s with mem := m, history := e }

/-- Data memory and the events are all that `SameButMemory` leaves free. -/
theorem sameButMemory_iff {s t : State} : SameButMemory s t ↔ ∃ m e, t = withMemory m e s := by
  constructor
  · rintro ⟨hregs, hzf, ⟨hsp, hslots⟩, hprog, ⟨hpc, hmset⟩, hcont, hrun⟩
    have hregs : t.regs = s.regs := Regs.ext_get fun r => hregs r (by simp)
    have hstk : t.stk = s.stk := Vector.ext fun i hi => by simpa [slot, hi] using hslots i (by simp)
    refine ⟨t.mem, t.history, ?_⟩
    cases t
    simp only [SameProg] at *
    subst_vars
    rfl
  · rintro ⟨m, e, rfl⟩
    exact ⟨fun _ _ => rfl, rfl, ⟨rfl, fun _ _ => rfl⟩, rfl, ⟨rfl, rfl⟩, ⟨rfl, rfl⟩⟩

section
variable {s t : State} (m : Memory) (e : List Event)

theorem stackPush_withMemory (v : Byte) : stackPush v (withMemory m e s) = (stackPush v s).map (withMemory m e) := by
  by_cases h : s.sp.val < 255 <;> simp [stackPush, withMemory, h]

theorem stackPop_withMemory : stackPop (withMemory m e s) = (stackPop s).map (Prod.map id (withMemory m e)) := by
  by_cases h : 0 < s.sp.val <;> simp [stackPop, withMemory, h]

theorem pushReturnAddress_withMemory (ra : Word16) :
    pushReturnAddress ra (withMemory m e s) = (pushReturnAddress ra s).map (withMemory m e) := by
  cases h : stackPush (loByte ra) s <;> simp [pushReturnAddress, stackPush_withMemory, h]

theorem popReturnAddress_withMemory :
    popReturnAddress (withMemory m e s) = (popReturnAddress s).map (Prod.map id (withMemory m e)) := by
  cases h : stackPop s with
  | none => simp [popReturnAddress, stackPop_withMemory, h]
  | some x => cases h' : stackPop x.2 <;> simp [popReturnAddress, stackPop_withMemory, h, h']

theorem execPush_withMemory {r : Reg} (h : execPush r s = .next t) :
    execPush r (withMemory m e s) = .next (withMemory m e t) := by
  have hv : regOperand (withMemory m e s) r = regOperand s r := rfl
  simp only [execPush, hv, stackPush_withMemory] at h ⊢
  cases hu : stackPush (regOperand s r) s <;> (rw [hu] at h; cases h; rfl)

theorem execPop_withMemory {r : Reg} (h : execPop r s = .next t) :
    execPop r (withMemory m e s) = .next (withMemory m e t) := by
  simp only [execPop, stackPop_withMemory] at h ⊢
  cases hu : stackPop s <;> (rw [hu] at h; cases h; rfl)

theorem execCall_withMemory {a b : Byte} (h : execCall a b s = .next t) :
    execCall a b (withMemory m e s) = .next (withMemory m e t) := by
  have hpc : (withMemory m e s).pc = s.pc := rfl
  simp only [execCall, hpc, pushReturnAddress_withMemory] at h ⊢
  cases hu : pushReturnAddress (s.pc + 1) s <;> (rw [hu] at h; cases h; rfl)

theorem execRet_withMemory (h : execRet s = .next t) : execRet (withMemory m e s) = .next (withMemory m e t) := by
  simp only [execRet, popReturnAddress_withMemory] at h ⊢
  cases hu : popReturnAddress s <;> (rw [hu] at h; cases h; rfl)

theorem execJz_withMemory {a b : Byte} (h : execJz a b s = .next t) :
    execJz a b (withMemory m e s) = .next (withMemory m e t) := by
  cases h
  cases hz : s.zf <;> simp [execJz, withMemory, hz, setPc]

/-- R61: an instruction on another memory and history does the same to the rest of the state. PUTMEM writes to the memory it
is given; RENDER and WAIT add their own event to the history they are given. -/
theorem exec_withMemory {i : Instr} (h : exec i s = .next t) :
    ∃ m' e', exec i (withMemory m e s) = .next (withMemory m' e' t) := by
  cases i with
  | putmem a b v => cases h; exact ⟨m.write (addrOf a b).toNat v, e, rfl⟩
  | render => cases h; exact ⟨m, e ++ [.render (framebuffer (withMemory m e s))], rfl⟩
  | wait v => cases h; exact ⟨m, e ++ [.wait v], rfl⟩
  | push r => exact ⟨m, e, execPush_withMemory m e h⟩
  | pop r => exact ⟨m, e, execPop_withMemory m e h⟩
  | call a b => exact ⟨m, e, execCall_withMemory m e h⟩
  | ret => exact ⟨m, e, execRet_withMemory m e h⟩
  | jz a b => exact ⟨m, e, execJz_withMemory m e h⟩
  | _ => cases h; exact ⟨m, e, rfl⟩

theorem afterInstr_withMemory (t : State) : afterInstr (withMemory m e t) = withMemory m e (afterInstr t) := by
  by_cases hf : ∃ f, t.run = .faulted f
  · obtain ⟨f, hf⟩ := hf
    rw [afterInstr_of_faulted hf, afterInstr_of_faulted (t := withMemory m e t) hf]
  · have hf : ∀ f, t.run ≠ .faulted f := not_exists.mp hf
    rw [afterInstr_of_not_faulted hf, afterInstr_of_not_faulted (t := withMemory m e t) hf,
      loopTest_endOfStep, loopTest_endOfStep]
    rfl

end

/-- Settles O47: the two states differ in memory and history only, so they fetch the same instruction or none, and
instruction, end of step and implicit halt each carry the difference over to memory and history. -/
theorem dataMemoryNeverReachesTheCore : Obligations.DataMemoryNeverReachesTheCore := by
  unfold Obligations.DataMemoryNeverReachesTheCore
  intro s s' t h hstep
  obtain ⟨m, e, rfl⟩ := sameButMemory_iff.mp h
  obtain ⟨hrun, p, hp, ⟨hf, rfl⟩ | ⟨i, u, hf, hu, rfl⟩⟩ := step_next hstep
  · have hstep' : step (withMemory m e s) = .next (implicitHalt (withMemory m e s)) := step_off_end hrun hp hf
    exact ⟨_, hstep', sameButMemory_iff.mpr ⟨m, e, rfl⟩⟩
  · obtain ⟨m', e', hu'⟩ := exec_withMemory m e hu
    exact ⟨_, step_of_exec hrun hp hf hu', sameButMemory_iff.mpr ⟨m', e', afterInstr_withMemory m' e' u⟩⟩

end Sys2Proof.Machine
end

section
/-! What the decoder can answer, said once: `ReadsOperands` for the operands of a defined opcode, `decodeOne_ok` for one
instruction. From these: the decoder and the encoder are inverse (R112), and which refusal is given when (R110, R113). -/

namespace Sys2Proof

/-- A computation with a second part succeeds exactly when both parts do. -/
theorem except_bind_eq_ok {ε α β : Type} {x : Except ε α} {f : α → Except ε β} {b : β} :
    (x >>= f) = .ok b ↔ ∃ a, x = .ok a ∧ f a = .ok b := by
  cases x <;> simp [bind, Except.bind]

/-! ### The tables (R20, R104) -/

theorem Reg.ofCode?_eq_none {b : Byte} : Reg.ofCode? b = none ↔ ∀ r : Reg, r.code ≠ b := by
  constructor
  · rintro h r rfl
    simp at h
  · intro h
    exact List.find?_eq_none.mpr fun r _ => by simpa using h r

/-- R20: the encoding bytes of the ten registers. -/
theorem Reg.exists_code_eq {b : Byte} :
    (∃ r : Reg, r.code = b) ↔ b ∈ ([0x01, 0x02, 0x03, 0x04, 0x10, 0x20, 0x21, 0x22, 0x23, 0x30] : List Byte) := by
  constructor
  · rintro ⟨r, rfl⟩
    cases r <;> decide
  · intro h
    obtain ⟨r, -, hr⟩ := List.mem_map.mp (show b ∈ Reg.all.map Reg.code from h)
    exact ⟨r, hr⟩

theorem Opcode.ofTag?_eq_none {t : Byte} : Opcode.ofTag? t = none ↔ ∀ o ∈ Opcode.all, o.tag ≠ t := by
  simp [Opcode.ofTag?]

/-- R113(a): the tags that no row of R104 has. -/
theorem Opcode.ofTag?_eq_none_iff_listed {t : Byte} : Opcode.ofTag? t = none ↔
    t.toNat = 0x00 ∨ t.toNat = 0x02 ∨ (0x04 ≤ t.toNat ∧ t.toNat ≤ 0x1F) ∨ (0x23 ≤ t.toNat ∧ t.toNat ≤ 0x3F) ∨
    (0x43 ≤ t.toNat ∧ t.toNat ≤ 0x7F) ∨ (0x83 ≤ t.toNat ∧ t.toNat ≤ 0x9F) ∨ (0xA2 ≤ t.toNat ∧ t.toNat ≤ 0xAF) ∨
    (0xB2 ≤ t.toNat ∧ t.toNat ≤ 0xEF) ∨ 0xF2 ≤ t.toNat := by
  have := t.isLt
  simp [Opcode.ofTag?_eq_none, Opcode.all, Opcode.tag, ← BitVec.toNat_inj]
  omega

/-- R114: the domain of the map is disjoint from the tags of R104. -/
theorem ReservedTags.ofTag?_eq_none {rt : ReservedTags} {t : Byte} {n : Nat} (hrt : rt.wf) (h : rt.arity? t = some n) :
    Opcode.ofTag? t = none := by
  obtain ⟨l, r, rfl, -⟩ := List.lookup_eq_some_iff.mp h
  exact (hrt.1 (t, n) (by simp)).2

/-! ### Encodings (R100) -/

theorem length_encode (i : Instr) : (encode i).length = i.size := by
  cases i with
  | reserved t ops => exact (Laws.EncodingShape.reserved t ops).1
  | _ => rfl

theorem Instr.size_of_opcode? {i : Instr} {o : Opcode} (h : i.opcode? = some o) : i.size = 1 + o.arity := by
  cases i <;> cases h <;> rfl

/-- R109: an instruction of a defined opcode exists whatever RESERVED_NOP_TAGS is. -/
theorem Instr.wf_of_opcode? (rt : ReservedTags) {i : Instr} {o : Opcode} (h : i.opcode? = some o) : i.wf rt = true := by
  cases i with
  | reserved => cases h
  | _ => rfl

/-! ### A byte that spells no register (R105) -/

theorem decodeReg_refused {b : Byte} (k : Nat) (h : ∀ r : Reg, r.code ≠ b) :
    decodeReg k b = .error (.illegalRegister k b) := by
  simp [decodeReg, Reg.ofCode?_eq_none.mpr h]

theorem decodeFR_refused {a : Byte} (c : Reg → Instr) (k : Nat) (rest : List Byte) (h : ∀ r : Reg, r.code ≠ a) :
    decodeFR c k (a :: rest) = .error (.illegalRegister (k + 1) a) := by
  simp only [decodeFR, decodeReg_refused (k + 1) h]
  rfl

theorem decodeFRI_refused {a : Byte} (c : Reg → Byte → Instr) (k : Nat) (b : Byte) (rest : List Byte)
    (h : ∀ r : Reg, r.code ≠ a) : decodeFRI c k (a :: b :: rest) = .error (.illegalRegister (k + 1) a) := by
  simp only [decodeFRI, decodeReg_refused (k + 1) h]
  rfl

theorem decodeFRR_refused_first {a : Byte} (c : Reg → Reg → Instr) (k : Nat) (b : Byte) (rest : List Byte)
    (h : ∀ r : Reg, r.code ≠ a) : decodeFRR c k (a :: b :: rest) = .error (.illegalRegister (k + 1) a) := by
  simp only [decodeFRR, decodeReg_refused (k + 1) h]
  rfl

theorem decodeFRR_refused_second {b : Byte} (c : Reg → Reg → Instr) (k : Nat) (d : Reg) (rest : List Byte)
    (h : ∀ r : Reg, r.code ≠ b) : decodeFRR c k (d.code :: b :: rest) = .error (.illegalRegister (k + 2) b) := by
  simp only [decodeFRR, decodeReg_code, decodeReg_refused (k + 2) h]
  rfl

/-! ### The operands of a defined opcode (R110) -/

/-- What decoding the operands of an opcode can answer: an instruction of that opcode whose encoding stood there; Truncated
at the tag's offset, when operand bytes are missing; a register refused, when none is missing. -/
def ReadsOperands (o : Opcode) (k : Nat) (ops : List Byte) : Except LoadRefusal (Instr × List Byte) → Prop
  | .ok (i, rest) => i.opcode? = some o ∧ encode i ++ rest = o.tag :: ops
  | .error (.truncated j) => j = k ∧ ops.length < o.arity
  | .error (.illegalRegister _ _) => o.arity ≤ ops.length
  | .error (.illegalTag _ _) | .error (.programTooLong _) => False

section
variable {o : Opcode} (k : Nat) (ops : List Byte)

theorem readsOperands_F0 {c : Instr} (hop : c.opcode? = some o) (henc : encode c = [o.tag]) :
    ReadsOperands o k ops (decodeF0 c ops) := ⟨hop, by rw [henc]; rfl⟩

theorem readsOperands_FI {c : Byte → Instr} (ho : o.arity = 1) (hop : ∀ i, (c i).opcode? = some o)
    (henc : ∀ i, encode (c i) = [o.tag, i]) : ReadsOperands o k ops (decodeFI c k ops) := by
  match ops with
  | [] => exact ⟨rfl, by simp [ho]⟩
  | i :: rest => exact ⟨hop i, by rw [henc]; rfl⟩

theorem readsOperands_FA {c : Byte → Byte → Instr} (ho : o.arity = 2) (hop : ∀ h l, (c h l).opcode? = some o)
    (henc : ∀ h l, encode (c h l) = [o.tag, h, l]) : ReadsOperands o k ops (decodeFA c k ops) := by
  match ops with
  | [] | [_] => exact ⟨rfl, by simp [ho]⟩
  | h :: l :: rest => exact ⟨hop h l, by rw [henc]; rfl⟩

theorem readsOperands_FAI {c : Byte → Byte → Byte → Instr} (ho : o.arity = 3)
    (hop : ∀ h l v, (c h l v).opcode? = some o) (henc : ∀ h l v, encode (c h l v) = [o.tag, h, l, v]) :
    ReadsOperands o k ops (decodeFAI c k ops) := by
  match ops with
  | [] | [_] | [_, _] => exact ⟨rfl, by simp [ho]⟩
  | h :: l :: v :: rest => exact ⟨hop h l v, by rw [henc]; rfl⟩

theorem readsOperands_FR {c : Reg → Instr} (ho : o.arity = 1) (hop : ∀ r, (c r).opcode? = some o)
    (henc : ∀ r, encode (c r) = [o.tag, r.code]) : ReadsOperands o k ops (decodeFR c k ops) := by
  match ops with
  | [] => exact ⟨rfl, by simp [ho]⟩
  | a :: rest =>
    by_cases ha : ∃ r : Reg, r.code = a
    · obtain ⟨r, rfl⟩ := ha
      rw [decodeFR_code]
      exact ⟨hop r, by rw [henc]; rfl⟩
    · rw [decodeFR_refused c k rest (not_exists.mp ha)]
      exact show o.arity ≤ _ by simp [ho]

theorem readsOperands_FRI {c : Reg → Byte → Instr} (ho : o.arity = 2) (hop : ∀ r i, (c r i).opcode? = some o)
    (henc : ∀ r i, encode (c r i) = [o.tag, r.code, i]) : ReadsOperands o k ops (decodeFRI c k ops) := by
  match ops with
  | [] | [_] => exact ⟨rfl, by simp [ho]⟩
  | a :: i :: rest =>
    by_cases ha : ∃ r : Reg, r.code = a
    · obtain ⟨r, rfl⟩ := ha
      rw [decodeFRI_code]
      exact ⟨hop r i, by rw [henc]; rfl⟩
    · rw [decodeFRI_refused c k i rest (not_exists.mp ha)]
      exact show o.arity ≤ _ by simp [ho]

theorem readsOperands_FRR {c : Reg → Reg → Instr} (ho : o.arity = 2) (hop : ∀ d r, (c d r).opcode? = some o)
    (henc : ∀ d r, encode (c d r) = [o.tag, d.code, r.code]) : ReadsOperands o k ops (decodeFRR c k ops) := by
  match ops with
  | [] | [_] => exact ⟨rfl, by simp [ho]⟩
  | a :: b :: rest =>
    by_cases ha : ∃ d : Reg, d.code = a
    · obtain ⟨d, rfl⟩ := ha
      by_cases hb : ∃ r : Reg, r.code = b
      · obtain ⟨r, rfl⟩ := hb
        rw [decodeFRR_code]
        exact ⟨hop d r, by rw [henc]; rfl⟩
      · rw [decodeFRR_refused_second c k d rest (not_exists.mp hb)]
        exact show o.arity ≤ _ by simp [ho]
    · rw [decodeFRR_refused_first c k b rest (not_exists.mp ha)]
      exact show o.arity ≤ _ by simp [ho]

theorem readsOperands_decodeOperands (o : Opcode) : ReadsOperands o k ops (decodeOperands o k ops) := by
  cases o with
  | add | sub | mov | cmp => exact readsOperands_FRR k ops rfl (fun _ _ => rfl) fun _ _ => rfl
  | put => exact readsOperands_FRI k ops rfl (fun _ _ => rfl) fun _ _ => rfl
  | push | pop => exact readsOperands_FR k ops rfl (fun _ => rfl) fun _ => rfl
  | setret | wait => exact readsOperands_FI k ops rfl (fun _ => rfl) fun _ => rfl
  | putmem => exact readsOperands_FAI k ops rfl (fun _ _ _ => rfl) fun _ _ _ => rfl
  | jump | jz | call => exact readsOperands_FA k ops rfl (fun _ _ => rfl) fun _ _ => rfl
  | exit | nop | ret | render => exact readsOperands_F0 k ops rfl rfl

end

theorem decodeOperands_ok {o : Opcode} {k : Nat} {ops rest : List Byte} {i : Instr}
    (h : decodeOperands o k ops = .ok (i, rest)) : i.opcode? = some o ∧ encode i ++ rest = o.tag :: ops := by
  have hread := readsOperands_decodeOperands k ops o
  rwa [h] at hread

theorem decodeOperands_ne_illegalTag (o : Opcode) (k : Nat) (ops : List Byte) (j : Nat) (t : Byte) :
    decodeOperands o k ops ≠ .error (.illegalTag j t) := by
  intro h
  have hread := readsOperands_decodeOperands k ops o
  rwa [h] at hread

/-- R113(c): the length check comes before the register checks. -/
theorem decodeOperands_short {o : Opcode} (k : Nat) {ops : List Byte} (h : ops.length < o.arity) :
    decodeOperands o k ops = .error (.truncated k) := by
  have hread := readsOperands_decodeOperands k ops o
  match hd : decodeOperands o k ops with
  | .ok (i, rest) =>
    obtain ⟨hop, henc⟩ := decodeOperands_ok hd
    have hlen := congrArg List.length henc
    rw [List.length_append, length_encode, Instr.size_of_opcode? hop, List.length_cons] at hlen
    omega
  | .error (.truncated j) =>
    rw [hd] at hread
    rw [hread.1]
  | .error (.illegalRegister _ _) =>
    rw [hd] at hread
    exact absurd h (Nat.not_lt.mpr hread)
  | .error (.illegalTag _ _) | .error (.programTooLong _) =>
    rw [hd] at hread
    exact hread.elim

/-! ### One instruction -/

theorem decodeReserved_ok {t : Byte} {n k : Nat} {ops rest : List Byte} {i : Instr}
    (h : decodeReserved t n k ops = .ok (i, rest)) :
    ∃ l : List Byte, i = .reserved t l ∧ l.length = n ∧ l ++ rest = ops := by
  unfold decodeReserved at h
  split at h
  · cases h
  · cases h
    exact ⟨ops.take n, rfl, by simp; omega, List.take_append_drop n ops⟩

/-- R110, R112: what decodes is a well-formed instruction, and its encoding is what was read. -/
theorem decodeOne_ok {rt : ReservedTags} {k : Nat} {b rest : List Byte} {i : Instr}
    (h : decodeOne rt k b = .ok (i, rest)) : i.wf rt = true ∧ encode i ++ rest = b := by
  unfold decodeOne at h
  split at h
  · cases h
  · rename_i t ops
    split at h
    · rename_i o ho
      obtain ⟨hop, henc⟩ := decodeOperands_ok h
      exact ⟨Instr.wf_of_opcode? rt hop, by rw [henc, Opcode.tag_of_ofTag? ho]⟩
    · rename_i ho
      split at h
      · rename_i n hn
        obtain ⟨l, rfl, rfl, rfl⟩ := decodeReserved_ok h
        exact ⟨by simp [Instr.wf, ho, hn], rfl⟩
      · cases h

/-! ### A whole image (R111) -/

theorem decodeLoop_ok {rt : ReservedTags} {fuel k : Nat} {b : List Byte} {p : List Instr}
    (h : decodeLoop rt fuel k b = .ok p) : encodeProgram p = b ∧ ∀ i ∈ p, i.wf rt = true := by
  induction fuel generalizing k b p with
  | zero =>
    cases b with
    | nil => cases h; exact ⟨rfl, by simp⟩
    | cons b bs => cases h
  | succ fuel ih =>
    cases b with
    | nil => cases h; exact ⟨rfl, by simp⟩
    | cons b bs =>
      obtain ⟨⟨i, rest⟩, hi, h⟩ := except_bind_eq_ok.mp h
      obtain ⟨q, hq, h⟩ := except_bind_eq_ok.mp h
      cases h
      obtain ⟨hwf, henc⟩ := decodeOne_ok hi
      obtain ⟨hrest, hall⟩ := ih hq
      refine ⟨?_, by simpa [hwf] using hall⟩
      rw [← henc, ← hrest]
      rfl

theorem decodeImage_ok {rt : ReservedTags} {b : List Byte} {p : List Instr} (h : decodeImage rt b = .ok p) :
    encodeProgram p = b ∧ Program.wf rt p = true := by
  obtain ⟨q, hq, hlen⟩ := except_bind_eq_ok.mp h
  obtain ⟨rfl, hlen⟩ := Machine.checkLength_eq_ok.mp hlen
  obtain ⟨henc, hall⟩ := decodeLoop_ok hq
  exact ⟨henc, by simpa [Program.wf, hlen] using hall⟩

/-! ### The statements -/

/-- Settles O2. -/
theorem decodeOneInvertsEncode : Obligations.DecodeOneInvertsEncode := by
  unfold Obligations.DecodeOneInvertsEncode
  exact fun rt k _ rest h => decodeOne_encode rt k rest h

/-- Settles O3, both directions of R112. -/
theorem decoderAndEncoderAreInverse : Obligations.DecoderAndEncoderAreInverse := by
  unfold Obligations.DecoderAndEncoderAreInverse
  exact fun _ => ⟨fun _ => decodeImage_encodeProgram, fun _ _ => decodeImage_ok⟩

/-- Settles O4: the tag is refused exactly when no row has it, since the operands of a row never give IllegalTag. -/
theorem illegalTagsAreTheListedOnes : Obligations.IllegalTagsAreTheListedOnes := by
  unfold Obligations.IllegalTagsAreTheListedOnes
  intro t k ops
  rw [← Opcode.ofTag?_eq_none_iff_listed]
  cases ho : Opcode.ofTag? t with
  | none => simp [decodeOne, ho, ReservedTags.arity?]
  | some o => simpa [decodeOne, ho] using decodeOperands_ne_illegalTag o k ops k t

/-- The tags of format FRR (R104). -/
theorem exists_decodeFRR (rt : ReservedTags) : ∀ tag ∈ ([0x01, 0x03, 0x22, 0x82] : List Byte), ∃ c : Reg → Reg → Instr,
    (∀ k ops, decodeOne rt k (tag :: ops) = decodeFRR c k ops) ∧ ∀ d r, encode (c d r) = [tag, d.code, r.code] := by
  simp only [List.forall_mem_cons, List.not_mem_nil, false_imp_iff, implies_true, and_true]
  exact ⟨⟨.add, fun k => decodeOne_tag rt k .add, fun _ _ => rfl⟩, ⟨.sub, fun k => decodeOne_tag rt k .sub, fun _ _ => rfl⟩,
    ⟨.mov, fun k => decodeOne_tag rt k .mov, fun _ _ => rfl⟩, ⟨.cmp, fun k => decodeOne_tag rt k .cmp, fun _ _ => rfl⟩⟩

/-- The tags of format FR (R104). -/
theorem exists_decodeFR (rt : ReservedTags) : ∀ tag ∈ ([0x41, 0x42] : List Byte), ∃ c : Reg → Instr,
    (∀ k ops, decodeOne rt k (tag :: ops) = decodeFR c k ops) ∧ ∀ r, encode (c r) = [tag, r.code] := by
  simp only [List.forall_mem_cons, List.not_mem_nil, false_imp_iff, implies_true, and_true]
  exact ⟨⟨.push, fun k => decodeOne_tag rt k .push, fun _ => rfl⟩, ⟨.pop, fun k => decodeOne_tag rt k .pop, fun _ => rfl⟩⟩

/-- Settles O5, format by format: each register byte is the code of a register or of none. -/
theorem onlyTheTenBytesSpellRegisters : Obligations.OnlyTheTenBytesSpellRegisters := by
  unfold Obligations.OnlyTheTenBytesSpellRegisters
  intro rt k a b rest
  simp only [← Reg.exists_code_eq, not_exists]
  refine ⟨fun tag htag => ?_, fun tag htag => ?_, fun ha => ?_, ?_⟩
  · obtain ⟨c, hdec, henc⟩ := exists_decodeFRR rt tag htag
    simp only [hdec]
    refine ⟨decodeFRR_refused_first c k b rest, ?_, ?_⟩
    · rintro ⟨d, rfl⟩ hb
      exact decodeFRR_refused_second c k d rest hb
    · rintro ⟨d, rfl⟩ ⟨r, rfl⟩
      exact ⟨c d r, decodeFRR_code c k d r rest, henc d r⟩
  · obtain ⟨c, hdec, henc⟩ := exists_decodeFR rt tag htag
    simp only [hdec]
    refine ⟨decodeFR_refused c k rest, ?_⟩
    rintro ⟨r, rfl⟩
    exact ⟨c r, decodeFR_code c k r rest, henc r⟩
  · exact (decodeOne_tag rt k .put _).trans (decodeFRI_refused .put k b rest ha)
  · rintro ⟨d, rfl⟩
    exact ⟨.put d b, (decodeOne_tag rt k .put _).trans (decodeFRI_code .put k d b rest), rfl⟩

/-- Settles O6: for a defined opcode by the order of the checks, for a reserved tag by its arity. -/
theorem cutOffEncodingIsTruncated : Obligations.CutOffEncodingIsTruncated := by
  unfold Obligations.CutOffEncodingIsTruncated
  intro rt k ops
  refine ⟨fun o h => ?_, fun t n hrt harity h => ?_⟩
  · rw [decodeOne_tag, decodeOperands_short k h]
  · simp [decodeOne, ReservedTags.ofTag?_eq_none hrt harity, harity, decodeReserved, h]

/-- Settles O7: the loop reads all instructions back, and the length check refuses them. -/
theorem longImageIsRefused : Obligations.LongImageIsRefused := by
  unfold Obligations.LongImageIsRefused
  intro rt p hwf hlen
  rw [decodeImage, decodeLoop_encodeProgram rt p (List.all_eq_true.mp hwf) _ 0 le_rfl]
  exact if_pos hlen

/-- Settles O1: each word is the encoding of its instruction. -/
theorem wordsOfEveryFamilyDecode : Obligations.WordsOfEveryFamilyDecode := by
  unfold Obligations.WordsOfEveryFamilyDecode
  exact ⟨decodeOne_encode [] 0 (i := .add .ax .bx) [] rfl, decodeOne_encode [] 0 (i := .sub .bx .cx) [] rfl,
    decodeOne_encode [] 0 (i := .mov .ret .fret) [] rfl, decodeOne_encode [] 0 (i := .cmp .ax .bx) [] rfl,
    decodeOne_encode [] 0 (i := .push .fret) [0b01000010, 0b00100011] rfl,
    decodeOne_encode [] 0 (i := .jz 0xFF 0xFE) [] rfl, decodeOne_encode [] 0 (i := .putmem 0x80 0x01 0xFF) [] rfl,
    decodeOne_encode [] 0 (i := .exit) [] rfl⟩

end Sys2Proof
end

section
/-! What it takes for a text to assemble, said once (`Assembled`): the labels are distinct, the operations are few enough, and
each operation is written as the instruction it becomes (`WrittenAs`). A text that misses one of these is refused. -/

namespace Sys2Proof.Machine

/-! ### Statements and operations -/

@[simp] theorem countOps_nil : countOps [] = 0 := rfl

@[simp] theorem countOps_labelDecl (n : Ident) (sts : List Statement) :
    countOps (.labelDecl n :: sts) = countOps sts := rfl

@[simp] theorem countOps_operation (m : Ident) (ops : List AsmOperand) (sts : List Statement) :
    countOps (.operation m ops :: sts) = countOps sts + 1 := rfl

@[simp] theorem countOps_append (a b : List Statement) : countOps (a ++ b) = countOps a + countOps b := by
  simp [countOps]

theorem length_operations (sts : List Statement) : (operations sts).length = countOps sts := by
  induction sts with
  | nil => rfl
  | cons st sts ih => cases st <;> simp [operations, ih]

theorem mem_operations {m : Ident} {ops : List AsmOperand} {sts : List Statement}
    (h : Statement.operation m ops ∈ sts) : (m, ops) ∈ operations sts := by
  induction sts with
  | nil => simp at h
  | cons st sts ih =>
    cases st with
    | labelDecl n => exact ih (by simpa using h)
    | operation m' ops' =>
      obtain h | h := List.mem_cons.mp h
      · cases h; simp [operations]
      · simp [operations, ih h]

/-- R134: the labels that statements declare, each with the number of operations before its declaration, `k` of them being
before the first statement. -/
def labelTable : Nat → List Statement → Labels
  | _, [] => []
  | k, .labelDecl n :: sts => (n, k) :: labelTable k sts
  | k, .operation _ _ :: sts => labelTable (k + 1) sts

theorem labelTable_append (k : Nat) (a b : List Statement) :
    labelTable k (a ++ b) = labelTable k a ++ labelTable (k + countOps a) b := by
  induction a generalizing k with
  | nil => rfl
  | cons st a ih => cases st <;> simp [labelTable, ih, Nat.add_assoc, Nat.add_comm 1]

theorem labelDecl_mem_of_lookup {n : Ident} {k j : Nat} {sts : List Statement}
    (h : List.lookup n (labelTable k sts) = some j) : Statement.labelDecl n ∈ sts := by
  induction sts generalizing k with
  | nil => simp [labelTable] at h
  | cons st sts ih =>
    cases st with
    | operation m ops => exact List.mem_cons_of_mem _ (ih h)
    | labelDecl n' =>
      by_cases hn : n = n'
      · simp [hn]
      · have hne : (n == n') = false := by simpa using hn
        exact List.mem_cons_of_mem _ (ih (k := k) (by simpa [labelTable, List.lookup_cons, hne] using h))

/-! ### Pass 1 (R133, R135) -/

/-- No name is declared twice. -/
def Labels.distinct (labels : Labels) : Prop := (labels.map Prod.fst).Nodup

theorem pass1Step_labelDecl {a b : Pass1} {n : Ident} (h : pass1Step a (.labelDecl n) = .ok b) :
    n ∉ a.labels.map Prod.fst ∧ b = { a with labels := a.labels ++ [(n, a.count)] } := by
  simp only [pass1Step] at h
  split at h
  · cases h
  · rename_i hn
    cases h
    refine ⟨fun hmem => hn ?_, rfl⟩
    obtain ⟨e, he, rfl⟩ := List.mem_map.mp hmem
    exact List.lookup_isSome_iff.mpr ⟨e, he, by simp⟩

theorem pass1Step_operation {a b : Pass1} {m : Ident} {ops : List AsmOperand}
    (h : pass1Step a (.operation m ops) = .ok b) :
    ∃ o, opcodeOfMnemonic? m = some o ∧ b = { a with pending := a.pending ++ [(o, ops)], count := a.count + 1 } := by
  simp only [pass1Step] at h
  split at h
  · cases h
  · rename_i o ho
    split at h
    · cases h
    · cases h
      exact ⟨o, ho, rfl⟩

/-- An operation of the text and the pending one pass 1 keeps of it (R133). -/
def KeptAs (x : Ident × List AsmOperand) (y : Opcode × List AsmOperand) : Prop :=
  opcodeOfMnemonic? x.1 = some y.1 ∧ y.2 = x.2

theorem pass1Loop_ok {a b : Pass1} {sts : List Statement} (h : pass1Loop a sts = .ok b) (ha : a.labels.distinct) :
    b.labels = a.labels ++ labelTable a.count sts ∧ b.labels.distinct ∧ b.count = a.count + countOps sts ∧
    ∃ q, b.pending = a.pending ++ q ∧ List.Forall₂ KeptAs (operations sts) q := by
  induction sts generalizing a with
  | nil =>
    cases h
    exact ⟨by simp [labelTable], ha, rfl, [], by simp, .nil⟩
  | cons st sts ih =>
    obtain ⟨a', hstep, hloop⟩ := except_bind_eq_ok.mp h
    cases st with
    | labelDecl n =>
      obtain ⟨hn, rfl⟩ := pass1Step_labelDecl hstep
      have ha' : Labels.distinct (a.labels ++ [(n, a.count)]) := by
        simpa [Labels.distinct, List.nodup_append] using ⟨ha, fun m k hm hmn => hn (hmn ▸ List.mem_map_of_mem hm)⟩
      obtain ⟨hlabels, hdistinct, hcount, hq⟩ := ih hloop ha'
      exact ⟨by simpa [labelTable] using hlabels, hdistinct, hcount, hq⟩
    | operation m ops =>
      obtain ⟨o, ho, rfl⟩ := pass1Step_operation hstep
      obtain ⟨hlabels, hdistinct, hcount, q, hq, hkept⟩ := ih hloop ha
      exact ⟨hlabels, hdistinct, by simp only [hcount, countOps_operation]; omega, (o, ops) :: q, by simpa using hq,
        .cons ⟨ho, rfl⟩ hkept⟩

/-! ### One operation of pass 2 (R136 to R140, R145) -/

theorem resolveLabel_ok {labels : Labels} {n : Ident} {hi lo : Byte} (h : resolveLabel labels n = .ok (hi, lo)) :
    ∃ j, List.lookup n labels = some j ∧ hi = hiByte (BitVec.ofNat 16 j) ∧ lo = loByte (BitVec.ofNat 16 j) := by
  unfold resolveLabel at h
  split at h
  · cases h
  · cases h
    exact ⟨_, ‹_›, rfl, rfl⟩

theorem asRegister_ok {x : AsmOperand} {r : Reg} (h : asRegister x = .ok r) : x = regText r := by
  cases x with
  | registerRef n =>
    simp only [asRegister] at h
    split at h
    · cases h
    · rename_i hq
      cases h
      have hname : regName r = n := by simpa using List.find?_some hq
      rw [← hname, regText]
  | number v => cases h
  | labelRef n => cases h

theorem asImmediate_ok {x : AsmOperand} {i : Byte} (h : asImmediate x = .ok i) : x = numText i := by
  cases x with
  | number v =>
    simp only [asImmediate] at h
    split at h
    · cases h
    · cases h
      rw [numText, BitVec.toNat_ofNat, Nat.mod_eq_of_lt (by omega)]
  | registerRef n => cases h
  | labelRef n => cases h

theorem asTarget_ok {labels : Labels} {x : AsmOperand} {t : Byte × Byte} (h : asTarget labels x = .ok t) :
    ∃ n, x = .labelRef n ∧ resolveLabel labels n = .ok t := by
  cases x with
  | labelRef n => exact ⟨n, rfl, h⟩
  | number v => cases h
  | registerRef n => cases h

section
variable {o : Opcode} {ops : List AsmOperand} {i : Instr}

theorem wrongArity_ne_ok : wrongArity o ops ≠ .ok i := fun h => by cases h

theorem resolve0_ok {c : Instr} (h : resolve0 o c ops = .ok i) : i = c ∧ ops = [] := by
  unfold resolve0 at h
  split at h
  · cases h
    exact ⟨rfl, rfl⟩
  · exact (wrongArity_ne_ok h).elim

theorem resolveR_ok {c : Reg → Instr} (h : resolveR o c ops = .ok i) : ∃ r, i = c r ∧ ops = [regText r] := by
  unfold resolveR at h
  split at h
  · obtain ⟨r, hr, h⟩ := except_bind_eq_ok.mp h
    cases h
    exact ⟨r, rfl, by rw [asRegister_ok hr]⟩
  · exact (wrongArity_ne_ok h).elim

theorem resolveI_ok {c : Byte → Instr} (h : resolveI o c ops = .ok i) : ∃ v, i = c v ∧ ops = [numText v] := by
  unfold resolveI at h
  split at h
  · obtain ⟨v, hv, h⟩ := except_bind_eq_ok.mp h
    cases h
    exact ⟨v, rfl, by rw [asImmediate_ok hv]⟩
  · exact (wrongArity_ne_ok h).elim

theorem resolveRR_ok {c : Reg → Reg → Instr} (h : resolveRR o c ops = .ok i) :
    ∃ d r, i = c d r ∧ ops = [regText d, regText r] := by
  unfold resolveRR at h
  split at h
  · obtain ⟨d, hd, h⟩ := except_bind_eq_ok.mp h
    obtain ⟨r, hr, h⟩ := except_bind_eq_ok.mp h
    cases h
    exact ⟨d, r, rfl, by rw [asRegister_ok hd, asRegister_ok hr]⟩
  · exact (wrongArity_ne_ok h).elim

theorem resolveRI_ok {c : Reg → Byte → Instr} (h : resolveRI o c ops = .ok i) :
    ∃ d v, i = c d v ∧ ops = [regText d, numText v] := by
  unfold resolveRI at h
  split at h
  · obtain ⟨d, hd, h⟩ := except_bind_eq_ok.mp h
    obtain ⟨v, hv, h⟩ := except_bind_eq_ok.mp h
    cases h
    exact ⟨d, v, rfl, by rw [asRegister_ok hd, asImmediate_ok hv]⟩
  · exact (wrongArity_ne_ok h).elim

theorem resolveIII_ok {c : Byte → Byte → Byte → Instr} (h : resolveIII o c ops = .ok i) :
    ∃ a b v, i = c a b v ∧ ops = [numText a, numText b, numText v] := by
  unfold resolveIII at h
  split at h
  · obtain ⟨a, ha, h⟩ := except_bind_eq_ok.mp h
    obtain ⟨b, hb, h⟩ := except_bind_eq_ok.mp h
    obtain ⟨v, hv, h⟩ := except_bind_eq_ok.mp h
    cases h
    exact ⟨a, b, v, rfl, by rw [asImmediate_ok ha, asImmediate_ok hb, asImmediate_ok hv]⟩
  · exact (wrongArity_ne_ok h).elim

theorem resolveT_ok {labels : Labels} {c : Byte → Byte → Instr} (h : resolveT labels o c ops = .ok i) :
    ∃ a b, i = c a b ∧ ∃ n, ops = [.labelRef n] ∧ resolveLabel labels n = .ok (a, b) := by
  unfold resolveT at h
  split at h
  · obtain ⟨⟨a, b⟩, ht, h⟩ := except_bind_eq_ok.mp h
    cases h
    obtain ⟨n, rfl, hn⟩ := asTarget_ok ht
    exact ⟨a, b, rfl, n, rfl, hn⟩
  · exact (wrongArity_ne_ok h).elim

end

/-- The text operands of an instruction, by the operand forms of R132; the address of a JUMP, JZ or CALL is that of a
label. -/
def WrittenAs (labels : Labels) (ops : List AsmOperand) : Instr → Prop
  | .add d r | .sub d r | .mov d r | .cmp d r => ops = [regText d, regText r]
  | .put d v => ops = [regText d, numText v]
  | .push r | .pop r => ops = [regText r]
  | .setret v | .wait v => ops = [numText v]
  | .putmem h l v => ops = [numText h, numText l, numText v]
  | .exit | .nop | .ret | .render => ops = []
  | .jump h l | .jz h l | .call h l => ∃ n, ops = [.labelRef n] ∧ resolveLabel labels n = .ok (h, l)
  | .reserved _ _ => False

theorem resolveOp_ok {labels : Labels} {o : Opcode} {ops : List AsmOperand} {i : Instr}
    (h : resolveOp labels o ops = .ok i) : i.opcode? = some o ∧ WrittenAs labels ops i := by
  cases o with
  | add | sub | mov | cmp => obtain ⟨d, r, rfl, hops⟩ := resolveRR_ok h; exact ⟨rfl, hops⟩
  | put => obtain ⟨d, v, rfl, hops⟩ := resolveRI_ok h; exact ⟨rfl, hops⟩
  | push | pop => obtain ⟨r, rfl, hops⟩ := resolveR_ok h; exact ⟨rfl, hops⟩
  | setret | wait => obtain ⟨v, rfl, hops⟩ := resolveI_ok h; exact ⟨rfl, hops⟩
  | putmem => obtain ⟨a, b, v, rfl, hops⟩ := resolveIII_ok h; exact ⟨rfl, hops⟩
  | exit | nop | ret | render => obtain ⟨rfl, hops⟩ := resolve0_ok h; exact ⟨rfl, hops⟩
  | jump | jz | call => obtain ⟨a, b, rfl, hops⟩ := resolveT_ok h; exact ⟨rfl, hops⟩

theorem admits_regText (r : Reg) : Admits .register (regText r) := ⟨r, rfl⟩

theorem admits_numText (v : Byte) : Admits .immediate (numText v) := Nat.le_of_lt_succ v.isLt

/-- R136 to R140: the operands an instruction is written with are of the kinds of their positions. -/
theorem WrittenAs.admits {labels : Labels} {ops : List AsmOperand} {i : Instr} {o : Opcode}
    (h : WrittenAs labels ops i) (hop : i.opcode? = some o) : List.Forall₂ Admits (textKinds o) ops := by
  cases i with
  | add | sub | mov | cmp => cases hop; cases h; exact .cons (admits_regText _) (.cons (admits_regText _) .nil)
  | put => cases hop; cases h; exact .cons (admits_regText _) (.cons (admits_numText _) .nil)
  | push | pop => cases hop; cases h; exact .cons (admits_regText _) .nil
  | setret | wait => cases hop; cases h; exact .cons (admits_numText _) .nil
  | putmem =>
    cases hop; cases h
    exact .cons (admits_numText _) (.cons (admits_numText _) (.cons (admits_numText _) .nil))
  | exit | nop | ret | render => cases hop; cases h; exact .nil
  | jump | jz | call => cases hop; obtain ⟨n, rfl, -⟩ := h; exact .cons trivial .nil
  | reserved => cases hop

/-- R138, R145: a label stands only as the target of a JUMP, JZ or CALL, whose bytes are the label's index. -/
theorem WrittenAs.of_labelRef_mem {labels : Labels} {ops : List AsmOperand} {i : Instr} {n : Ident}
    (h : WrittenAs labels ops i) (hn : .labelRef n ∈ ops) :
    ∃ hi lo, resolveLabel labels n = .ok (hi, lo) ∧ (i = .jump hi lo ∨ i = .jz hi lo ∨ i = .call hi lo) := by
  cases i with
  | jump a b | jz a b | call a b =>
    obtain ⟨n', rfl, hlabel⟩ := h
    cases List.mem_singleton.mp hn
    exact ⟨a, b, hlabel, by simp⟩
  | reserved => exact h.elim
  | _ => cases h; simp [regText, numText] at hn

/-! ### A whole text -/

/-- The operation becomes the instruction (R132, R136). -/
def Becomes (labels : Labels) (x : Ident × List AsmOperand) (i : Instr) : Prop :=
  ∃ o, opcodeOfMnemonic? x.1 = some o ∧ i.opcode? = some o ∧ WrittenAs labels x.2 i

theorem pass2_ok {labels : Labels} {xs : List (Ident × List AsmOperand)} {q : List (Opcode × List AsmOperand)}
    {p : List Instr} (hkept : List.Forall₂ KeptAs xs q) (h : pass2 labels q = .ok p) :
    List.Forall₂ (Becomes labels) xs p := by
  induction hkept generalizing p with
  | nil => cases h; exact .nil
  | @cons x y xs q hxy _ ih =>
    obtain ⟨i, hi, h⟩ := except_bind_eq_ok.mp h
    obtain ⟨p', hp', h⟩ := except_bind_eq_ok.mp h
    cases h
    obtain ⟨ho, hops⟩ := hxy
    obtain ⟨hop, hwritten⟩ := resolveOp_ok hi
    exact .cons ⟨y.1, ho, hop, hops ▸ hwritten⟩ (ih hp')

/-- What holds of the statements of a text and of the program they assemble to. -/
structure Assembled (sts : List Statement) (p : List Instr) : Prop where
  count_le : countOps sts ≤ 65535
  distinct : (labelTable 0 sts).distinct
  becomes : List.Forall₂ (Becomes (labelTable 0 sts)) (operations sts) p

theorem assembled_of_ok {sts : List Statement} {p : List Instr} (h : assembleStatements sts = .ok p) :
    Assembled sts p := by
  obtain ⟨b, hb, hp⟩ := except_bind_eq_ok.mp h
  obtain ⟨a, ha, hlen⟩ := except_bind_eq_ok.mp hb
  split at hlen
  · cases hlen
  · rename_i hle
    cases hlen
    obtain ⟨hlabels, hdistinct, hcount, q, hq, hkept⟩ := pass1Loop_ok ha List.nodup_nil
    simp only [List.nil_append, Nat.zero_add] at hlabels hcount hq
    rw [hlabels] at hdistinct
    rw [hlabels, hq] at hp
    rw [hcount] at hle
    exact ⟨Nat.not_lt.mp hle, hdistinct, pass2_ok hkept hp⟩

theorem assemblyFails_of_not_assembled {sts : List Statement} (h : ∀ p, ¬ Assembled sts p) : AssemblyFails sts := by
  cases hr : assembleStatements sts with
  | error e => exact ⟨e, hr⟩
  | ok p => exact (h p (assembled_of_ok hr)).elim

theorem forall₂_getElem? {α β : Type} {R : α → β → Prop} {l : List α} {m : List β} (h : List.Forall₂ R l m) {k : Nat}
    {a : α} (ha : l[k]? = some a) : ∃ b, m[k]? = some b ∧ R a b := by
  induction h generalizing k with
  | nil => simp at ha
  | cons hab _ ih =>
    cases k with
    | zero => cases ha; exact ⟨_, rfl, hab⟩
    | succ k => exact ih ha

namespace Assembled
variable {sts : List Statement} {p : List Instr}

theorem length_eq (h : Assembled sts p) : p.length = countOps sts := by
  rw [← h.becomes.length_eq, length_operations]

theorem of_operation_mem (h : Assembled sts p) {m : Ident} {ops : List AsmOperand}
    (hm : Statement.operation m ops ∈ sts) : ∃ i, Becomes (labelTable 0 sts) (m, ops) i := by
  obtain ⟨k, hk⟩ := List.getElem?_of_mem (mem_operations hm)
  obtain ⟨i, -, hi⟩ := forall₂_getElem? h.becomes hk
  exact ⟨i, hi⟩

theorem wf (h : Assembled sts p) (rt : ReservedTags) : Program.wf rt p = true := by
  have hwf : ∀ i ∈ p, i.wf rt = true := by
    intro i hi
    obtain ⟨k, hk⟩ := List.getElem?_of_mem hi
    obtain ⟨x, -, o, -, hop, -⟩ := forall₂_getElem? h.becomes.flip hk
    exact Instr.wf_of_opcode? rt hop
  have hlen : p.length ≤ Config.maxProgramLen := h.length_eq ▸ h.count_le
  simpa [Program.wf, hlen] using hwf

end Assembled

/-- R134: with distinct labels, a name is looked up at its one declaration. -/
theorem lookup_labelTable {before after : List Statement} {n : Ident}
    (h : (labelTable 0 (before ++ .labelDecl n :: after)).distinct) :
    List.lookup n (labelTable 0 (before ++ .labelDecl n :: after)) = some (countOps before) := by
  simp only [labelTable_append, labelTable, Nat.zero_add] at h ⊢
  have hn : List.lookup n (labelTable 0 before) = none := by
    rw [List.lookup_eq_none_iff]
    intro e he
    simp only [Labels.distinct, List.map_append, List.nodup_append] at h
    have := h.2.2 e.1 (List.mem_map_of_mem he) n (by simp)
    simpa using this.symm
  simp [List.lookup_append, hn]

/-! ### The statements -/

/-- Settles O53. -/
theorem everyOperationIsOneInstruction : Obligations.EveryOperationIsOneInstruction := by
  unfold Obligations.EveryOperationIsOneInstruction
  intro sts p h
  have ha := assembled_of_ok h
  refine ⟨ha.length_eq, ha.length_eq ▸ ha.count_le, fun k m ops hk => ?_⟩
  obtain ⟨i, hi, o, ho, hop, -⟩ := forall₂_getElem? ha.becomes hk
  exact ⟨i, o, hi, hop, ho⟩

/-- Settles O54: the table is complete before pass 2 reads it, so the place of the reference does not matter. -/
theorem labelsResolveForwardAndBackward : Obligations.LabelsResolveForwardAndBackward := by
  unfold Obligations.LabelsResolveForwardAndBackward
  intro before after n p h k m hk
  have ha := assembled_of_ok h
  obtain ⟨i, hpk, o, -, -, hwritten⟩ := forall₂_getElem? ha.becomes hk
  obtain ⟨hi, lo, hlabel, hinstr⟩ := hwritten.of_labelRef_mem (List.mem_singleton.mpr rfl)
  obtain ⟨j, hj, rfl, rfl⟩ := resolveLabel_ok hlabel
  rw [lookup_labelTable ha.distinct] at hj
  cases hj
  refine ⟨_, _, ?_, by simpa [hpk] using hinstr⟩
  have hle := ha.count_le
  rw [countOps_append] at hle
  rw [hiByte_toNat, loByte_toNat, BitVec.toNat_ofNat, Nat.div_add_mod, Nat.mod_eq_of_lt (by omega)]

/-- Settles O55: the label table would hold the name twice. -/
theorem duplicateLabelIsRefused : Obligations.DuplicateLabelIsRefused := by
  unfold Obligations.DuplicateLabelIsRefused
  intro a b c n
  refine assemblyFails_of_not_assembled fun p h => ?_
  have hdistinct := h.distinct
  simp [Labels.distinct, labelTable_append, labelTable, List.nodup_append] at hdistinct

/-- Settles O56: an operation that becomes an instruction has an opcode and one operand for each of its positions. -/
theorem unknownMnemonicOrArityIsRefused : Obligations.UnknownMnemonicOrArityIsRefused := by
  unfold Obligations.UnknownMnemonicOrArityIsRefused
  intro sts m ops hm hbad
  refine assemblyFails_of_not_assembled fun p h => ?_
  obtain ⟨i, o, ho, hop, hwritten⟩ := h.of_operation_mem hm
  exact hbad o ho (hwritten.admits hop).length_eq.symm

/-- Settles O57: an operation that becomes an instruction has operands of the kinds of their positions, and a label it refers
to is in the table, so declared. -/
theorem inadmissibleOperandIsRefused : Obligations.InadmissibleOperandIsRefused := by
  unfold Obligations.InadmissibleOperandIsRefused
  intro sts m ops o j k x hm ho hk hx hbad
  refine assemblyFails_of_not_assembled fun p h => ?_
  obtain ⟨i, o', ho', hop, hwritten⟩ := h.of_operation_mem hm
  cases ho.symm.trans ho'
  obtain hkind | ⟨n, rfl, hn⟩ := hbad
  · obtain ⟨y, hy, hadmits⟩ := forall₂_getElem? (hwritten.admits hop) hk
    cases hx.symm.trans hy
    exact hkind hadmits
  · obtain ⟨hi, lo, hlabel, -⟩ := hwritten.of_labelRef_mem (List.mem_of_getElem? hx)
    obtain ⟨l, hl, -, -⟩ := resolveLabel_ok hlabel
    exact hn (labelDecl_mem_of_lookup hl)

/-- Settles O58. -/
theorem longTextIsRefused : Obligations.LongTextIsRefused := by
  unfold Obligations.LongTextIsRefused
  exact fun sts hlong => assemblyFails_of_not_assembled fun p h => absurd h.count_le (Nat.not_le.mpr hlong)

/-- Settles O59: every operation becomes an instruction of a defined opcode. -/
theorem assembledTextEncodesAndDecodesBack : Obligations.AssembledTextEncodesAndDecodesBack := by
  unfold Obligations.AssembledTextEncodesAndDecodesBack
  intro text p h rt
  unfold assemble at h
  split at h
  · cases h
  · have hwf := (assembled_of_ok h).wf rt
    exact ⟨hwf, decodeImage_encodeProgram hwf⟩

end Sys2Proof.Machine
end

section
/-! ADD and SUB (R202, R203): the text of one operation, assembled (R132 to R142), and what the ALU's write to a register and
ZF leaves unchanged. -/

namespace Sys2Proof.Machine

/-! ### A text of one operation -/

@[simp] theorem regOfName?_regName (r : Reg) : regOfName? (regName r) = some r := by cases r <;> rfl

@[simp] theorem asRegister_regText (r : Reg) : asRegister (regText r) = .ok r := by
  simp only [asRegister, regText, regOfName?_regName]

@[simp] theorem resolveRR_regText (o : Opcode) (c : Reg → Reg → Instr) (d r : Reg) :
    resolveRR o c [regText d, regText r] = .ok (c d r) := by
  simp only [resolveRR, asRegister_regText]
  rfl

/-- R132: no two opcodes share a mnemonic, so looking one up finds the opcode it was written for. -/
theorem names_mnemonic (o : Opcode) : Names (mnemonic o) o := by
  intro w hw
  rw [opcodeOfMnemonic?, hw]
  cases o <;> rfl

theorem pass1_operation {w : Ident} {o : Opcode} {ops : List AsmOperand} (hname : opcodeOfMnemonic? w = some o)
    (harity : ops.length = textArity o) : pass1 [.operation w ops] = .ok ⟨[], [(o, ops)], 1⟩ := by
  have hstep : pass1Step ⟨[], [], 0⟩ (.operation w ops) = .ok ⟨[], [(o, ops)], 1⟩ := by
    simp [pass1Step, hname, harity]
  simp only [pass1, pass1Loop, hstep]
  rfl

/-- R133, R136: an operation with its opcode's number of operands assembles to what pass 2 makes of it. -/
theorem assemblesTo_mnemonic {o : Opcode} {ops : List AsmOperand} {i : Instr} (harity : ops.length = textArity o)
    (hresolve : resolveOp [] o ops = .ok i) : AssemblesTo (mnemonic o) ops i := by
  intro w hw
  simp only [assembleStatements, pass1_operation (names_mnemonic o w hw) harity]
  show pass2 [] [(o, ops)] = .ok [i]
  simp only [pass2, hresolve]
  rfl

/-! ### The result on bytes (R200, R201) -/

theorem add_beq_zero_iff (x y : Byte) : (x + y == 0) = true ↔ (x.toNat + y.toNat) % 256 = 0 := by
  rw [beq_iff_eq, ← BitVec.toNat_inj, BitVec.toNat_add]
  rfl

theorem sub_toNat (x y : Byte) : (x - y).toNat = (x.toNat + 256 - y.toNat) % 256 := by
  have hy := y.isLt
  rw [BitVec.toNat_sub]
  omega

theorem sub_beq_zero_iff (x y : Byte) : (x - y == 0) = true ↔ x = y := by
  rw [beq_iff_eq, sub_eq_zero]

/-! ### ADD and SUB -/

/-- All that a write to one register and ZF leaves unchanged. -/
theorem frame_setZf_setReg (s : State) (d : Reg) (v : Byte) (z : Bool) :
    SameRegsExcept [d] s (setZf z (setReg d v s)) ∧ SameStack s (setZf z (setReg d v s)) ∧
    SameMem s (setZf z (setReg d v s)) ∧ SameProg s (setZf z (setReg d v s)) ∧
    SameHistory s (setZf z (setReg d v s)) ∧ SameRun s (setZf z (setReg d v s)) ∧ SamePc s (setZf z (setReg d v s)) :=
  ⟨sameRegsExcept_setReg s d v, ⟨rfl, fun _ _ => rfl⟩, fun _ => rfl, rfl, rfl, ⟨rfl, rfl⟩, ⟨rfl, rfl⟩⟩

theorem exec_add (d r : Reg) (s : State) :
    exec (.add d r) s =
      .next (setZf (getReg s d + getReg s r == 0) (setReg d (getReg s d + getReg s r) s)) := rfl

theorem exec_sub (d r : Reg) (s : State) :
    exec (.sub d r) s =
      .next (setZf (getReg s d - getReg s r == 0) (setReg d (getReg s d - getReg s r) s)) := rfl

/-- Settles O12: the written byte reads back as the sum of the two registers' old bytes. -/
theorem addWritesSumAndZeroFlag : Obligations.AddWritesSumAndZeroFlag := by
  unfold Obligations.AddWritesSumAndZeroFlag
  intro d r
  have htext : AssemblesTo (mnemonic .add) [regText d, regText r] (.add d r) :=
    assemblesTo_mnemonic rfl (resolveRR_regText .add .add d r)
  refine ⟨rfl, htext, fun s => ⟨_, exec_add d r s, ?_, add_beq_zero_iff _ _, frame_setZf_setReg s d _ _⟩⟩
  rw [getReg_setZf, getReg_setReg_same, BitVec.toNat_add]

/-- Settles O13: the written byte reads back as the first register's old byte less the second's (D4). -/
theorem subWritesDifferenceAndZeroFlag : Obligations.SubWritesDifferenceAndZeroFlag := by
  unfold Obligations.SubWritesDifferenceAndZeroFlag
  intro d r
  have htext : AssemblesTo (mnemonic .sub) [regText d, regText r] (.sub d r) :=
    assemblesTo_mnemonic rfl (resolveRR_regText .sub .sub d r)
  refine ⟨rfl, htext, fun s => ⟨_, exec_sub d r s, ?_, sub_beq_zero_iff _ _, frame_setZf_setReg s d _ _⟩⟩
  rw [getReg_setZf, getReg_setReg_same, sub_toNat]

end Sys2Proof.Machine
end

section
/-! SETRET, PUT and MOV (R220 to R222): immediates in a text, and a register write that sets no flag. -/

namespace Sys2Proof.Machine

/-! ### Immediates in a text (R136) -/

@[simp] theorem asImmediate_numText (v : Byte) : asImmediate (numText v) = .ok v := by
  have hv : v.toNat ≤ 255 := admits_numText v
  simp [asImmediate, numText, hv]

@[simp] theorem resolveI_numText (o : Opcode) (c : Byte → Instr) (v : Byte) : resolveI o c [numText v] = .ok (c v) := by
  simp only [resolveI, asImmediate_numText]
  rfl

@[simp] theorem resolveRI_regText_numText (o : Opcode) (c : Reg → Byte → Instr) (d : Reg) (v : Byte) :
    resolveRI o c [regText d, numText v] = .ok (c d v) := by
  simp only [resolveRI, asRegister_regText, asImmediate_numText]
  rfl

/-! ### The moves -/

/-- All that a write to one register leaves unchanged: it is a write to that register and of ZF's old value. -/
theorem frame_setReg (s : State) (d : Reg) (v : Byte) :
    (setReg d v s).zf = s.zf ∧ SameRegsExcept [d] s (setReg d v s) ∧ SameStack s (setReg d v s) ∧
    SameMem s (setReg d v s) ∧ SameProg s (setReg d v s) ∧ SameHistory s (setReg d v s) ∧
    SameRun s (setReg d v s) ∧ SamePc s (setReg d v s) :=
  ⟨setReg_zf s d v, frame_setZf_setReg s d v s.zf⟩

theorem exec_setret (v : Byte) (s : State) : exec (.setret v) s = .next (setReg .ret v s) := rfl

theorem exec_put (d : Reg) (v : Byte) (s : State) : exec (.put d v) s = .next (setReg d v s) := rfl

theorem exec_mov (d r : Reg) (s : State) : exec (.mov d r) s = .next (setReg d (getReg s r) s) := rfl

/-- Settles O15: SETRET is the write of the immediate to ReturnValue. -/
theorem setretWritesReturnValue : Obligations.SetretWritesReturnValue := by
  unfold Obligations.SetretWritesReturnValue
  intro v
  have htext : AssemblesTo (mnemonic .setret) [numText v] (.setret v) :=
    assemblesTo_mnemonic rfl (resolveI_numText .setret .setret v)
  exact ⟨rfl, htext, fun s => ⟨_, exec_setret v s, getReg_setReg_same s .ret v, frame_setReg s .ret v⟩⟩

/-- Settles O16: PUT is the write of the immediate to its register, and ZF is kept for every byte. -/
theorem putWritesImmediate : Obligations.PutWritesImmediate := by
  unfold Obligations.PutWritesImmediate
  intro d v
  have htext : AssemblesTo (mnemonic .put) [regText d, numText v] (.put d v) :=
    assemblesTo_mnemonic rfl (resolveRI_regText_numText .put .put d v)
  exact ⟨rfl, htext, fun s => ⟨_, exec_put d v s, getReg_setReg_same s d v, frame_setReg s d v⟩⟩

/-- Settles O17: MOV is the write of the source's old byte, so a copy to the same register needs no case of its own. -/
theorem movCopiesRegister : Obligations.MovCopiesRegister := by
  unfold Obligations.MovCopiesRegister
  intro d r
  have htext : AssemblesTo (mnemonic .mov) [regText d, regText r] (.mov d r) :=
    assemblesTo_mnemonic rfl (resolveRR_regText .mov .mov d r)
  exact ⟨rfl, htext, fun s => ⟨_, exec_mov d r s, getReg_setReg_same s d _, frame_setReg s d _⟩⟩

end Sys2Proof.Machine
end

section
/-! CMP (R240): the two branches of its zero output, and the frame of a write to ZF alone. -/

namespace Sys2Proof.Machine

/-- Without a borrow the difference of the bytes is that of the numbers. -/
theorem cmpZero_of_le {a b : Byte} (h : b.toNat ≤ a.toNat) : cmpZero a b = true ↔ a.toNat - b.toNat = 0 := by
  rw [cmpZero, if_pos h, sub_beq_zero_iff, ← BitVec.toNat_inj]
  omega

theorem cmpZero_of_lt {a b : Byte} (h : a.toNat < b.toNat) : cmpZero a b = false := if_neg (Nat.not_le.mpr h)

/-- All that a write to ZF leaves unchanged. -/
theorem frame_setZf (s : State) (z : Bool) :
    SameRegsExcept [] s (setZf z s) ∧ SameStack s (setZf z s) ∧ SameMem s (setZf z s) ∧ SameProg s (setZf z s) ∧
    SameHistory s (setZf z s) ∧ SameRun s (setZf z s) ∧ SamePc s (setZf z s) :=
  ⟨fun r _ => getReg_setZf s z r, ⟨rfl, fun i _ => slot_setZf s z i⟩, readMem_setZf s z, rfl, rfl, ⟨rfl, rfl⟩,
    ⟨rfl, rfl⟩⟩

theorem exec_cmp (a b : Reg) (s : State) :
    exec (.cmp a b) s = .next (setZf (cmpZero (getReg s a) (getReg s b)) s) := rfl

/-- Settles O14: CMP is a write of the ALU's zero output to ZF, so each branch of R240 is one of `cmpZero`. -/
theorem cmpWritesOnlyZeroFlag : Obligations.CmpWritesOnlyZeroFlag := by
  unfold Obligations.CmpWritesOnlyZeroFlag
  intro a b
  have htext : AssemblesTo (mnemonic .cmp) [regText a, regText b] (.cmp a b) :=
    assemblesTo_mnemonic rfl (resolveRR_regText .cmp .cmp a b)
  exact ⟨rfl, htext, fun s => ⟨_, exec_cmp a b s, cmpZero_of_le, cmpZero_of_lt, frame_setZf s _⟩⟩

end Sys2Proof.Machine
end

section
/-! PUSH and POP (R260 to R262): a text of one register operand, what a push and a pop leave unchanged, the fault of each, and
a pop right after a push. -/

namespace Sys2Proof.Machine

@[simp] theorem resolveR_regText (o : Opcode) (c : Reg → Instr) (r : Reg) : resolveR o c [regText r] = .ok (c r) := by
  simp only [resolveR, asRegister_regText]
  rfl

/-- All that a fault leaves unchanged (R402). -/
theorem onlyRunChanged_raiseFault (k : RunFault) (s : State) : OnlyRunChanged s (raiseFault k s) where
  regs r _ := getReg_raiseFault s k r
  zf := rfl
  stack := ⟨rfl, fun i _ => slot_raiseFault s k i⟩
  mem := readMem_raiseFault s k
  prog := rfl
  history := rfl
  pc := ⟨rfl, rfl⟩
  cont := rfl

/-! ### PUSH -/

/-- All that a push leaves unchanged. -/
theorem Pushed.frame {v : Byte} {s t : State} (h : Pushed v s t) :
    t.zf = s.zf ∧ SameRegsExcept [] s t ∧ SameSlotsExcept [s.sp.val] s t ∧ SameMem s t ∧ SameProg s t ∧
    SameHistory s t ∧ SameRun s t ∧ SamePc s t := by
  have hslots : SameSlotsExcept [s.sp.val] s t := fun i hi => h.others i (by simpa using hi)
  rw [h.rest] at hslots ⊢
  exact ⟨rfl, fun _ _ => rfl, hslots, fun _ => rfl, rfl, rfl, ⟨rfl, rfl⟩, ⟨rfl, rfl⟩⟩

theorem exec_push_of_room (r : Reg) {s : State} (h : s.sp.val < 255) :
    ∃ t, exec (.push r) s = .next t ∧ Pushed (getReg s r) s t := by
  obtain ⟨t, ht⟩ := stackPush_of_room (getReg s r) h
  exact ⟨t, by simp only [exec, execPush, regOperand, ht], stackPush_some ht⟩

theorem exec_push_full (r : Reg) {s : State} (h : s.sp.val = 255) :
    exec (.push r) s = .next (raiseFault .stackOverflow s) := by
  simp only [exec, execPush, stackPush_full _ h]

/-- Settles O18: with room PUSH is the push of the register's byte, on a full stack it is the fault. -/
theorem pushStoresOrOverflows : Obligations.PushStoresOrOverflows := by
  unfold Obligations.PushStoresOrOverflows
  intro r
  have htext : AssemblesTo (mnemonic .push) [regText r] (.push r) :=
    assemblesTo_mnemonic rfl (resolveR_regText .push .push r)
  refine ⟨rfl, htext, fun s => ⟨fun hroom => ?_, fun hfull => ?_⟩⟩
  · obtain ⟨t, ht, hp⟩ := exec_push_of_room r hroom
    exact ⟨t, ht, hp.stored, hp.sp, hp.frame⟩
  · exact ⟨_, exec_push_full r hfull, rfl, onlyRunChanged_raiseFault _ s⟩

/-! ### POP -/

/-- All that a pop and the write of a register leave unchanged; no slot is cleared (R36). -/
theorem Popped.frame_setReg {v : Byte} {s t : State} (h : Popped v s t) (r : Reg) :
    (setReg r v t).zf = s.zf ∧ SameRegsExcept [r] s (setReg r v t) ∧ SameSlotsExcept [] s (setReg r v t) ∧
    SameMem s (setReg r v t) ∧ SameProg s (setReg r v t) ∧ SameHistory s (setReg r v t) ∧
    SameRun s (setReg r v t) ∧ SamePc s (setReg r v t) := by
  rw [h.rest]
  exact ⟨rfl, sameRegsExcept_setReg s r v, fun _ _ => rfl, fun _ => rfl, rfl, rfl, ⟨rfl, rfl⟩, ⟨rfl, rfl⟩⟩

theorem exec_pop_of_held (r : Reg) {s : State} (h : 0 < s.sp.val) :
    ∃ v t, exec (.pop r) s = .next (setReg r v t) ∧ Popped v s t := by
  obtain ⟨v, t, ht⟩ := stackPop_of_held h
  exact ⟨v, t, by simp only [exec, execPop, ht], stackPop_some ht⟩

theorem exec_pop_empty (r : Reg) {s : State} (h : s.sp.val = 0) :
    exec (.pop r) s = .next (raiseFault .stackUnderflow s) := by
  simp only [exec, execPop, stackPop_empty h]

/-- Settles O19: with a byte held POP writes the popped byte to the register, on an empty stack it is the fault. -/
theorem popLoadsOrUnderflows : Obligations.PopLoadsOrUnderflows := by
  unfold Obligations.PopLoadsOrUnderflows
  intro r
  have htext : AssemblesTo (mnemonic .pop) [regText r] (.pop r) :=
    assemblesTo_mnemonic rfl (resolveR_regText .pop .pop r)
  refine ⟨rfl, htext, fun s => ⟨fun hheld => ?_, fun hempty => ?_⟩⟩
  · obtain ⟨v, t, ht, hp⟩ := exec_pop_of_held r hheld
    exact ⟨_, ht, by rw [getReg_setReg_same, hp.top], hp.sp, hp.frame_setReg r⟩
  · exact ⟨_, exec_pop_empty r hempty, rfl, onlyRunChanged_raiseFault _ s⟩

/-! ### PUSH, then POP -/

/-- A pop right after a push answers the pushed byte and moves SP back. -/
theorem Pushed.popped_eq {v w : Byte} {s t u : State} (hpush : Pushed v s t) (hpop : Popped w t u) :
    w = v ∧ u.sp = s.sp := by
  have htop : t.sp.val - 1 = s.sp.val := by rw [hpush.sp, Nat.add_sub_cancel]
  constructor
  · have hslot := hpop.top
    rw [htop, hpush.stored] at hslot
    exact (Option.some.inj hslot).symm
  · exact Fin.ext (hpop.sp.trans htop)

/-- Settles O20: POP writes back the byte that PUSH stored, and the rest is the two frames, one after the other. -/
theorem pushThenPopRestores : Obligations.PushThenPopRestores := by
  unfold Obligations.PushThenPopRestores
  intro r s hroom
  obtain ⟨t, ht, hpush⟩ := exec_push_of_room r hroom
  obtain ⟨v, u, hu, hpop⟩ := exec_pop_of_held r (s := t) (by rw [hpush.sp]; omega)
  obtain ⟨rfl, hsp⟩ := hpush.popped_eq hpop
  obtain ⟨hzf, hregs, hslots, hmem, -⟩ := hpush.frame
  obtain ⟨hzf', hregs', hslots', hmem', -⟩ := hpop.frame_setReg r
  refine ⟨t, _, ht, hu, hsp, fun q _ => ?_, fun i hi => ?_, hzf'.trans hzf, fun a => (hmem' a).trans (hmem a)⟩
  · by_cases hq : q = r
    · rw [hq, getReg_setReg_same]
    · rw [hregs' q (by simpa using hq), hregs q List.not_mem_nil]
  · rw [hslots' i List.not_mem_nil, hslots i hi]

end Sys2Proof.Machine
end

section
/-! JUMP, JZ, CALL and RETURN (R280 to R284): a label in a text, what a write of the pc leaves unchanged, the return address on
the stack, and a RETURN that resumes after its CALL. -/

namespace Sys2Proof.Machine

/-! ### A label in a text (R136, R145) -/

/-- The resolver splits an index into the two bytes whose number it is. -/
theorem resolveLabel_of_lookup {labels : Labels} {n : Ident} {h l : Byte}
    (hn : List.lookup n labels = some (256 * h.toNat + l.toNat)) : resolveLabel labels n = .ok (h, l) := by
  have hindex : BitVec.ofNat 16 (256 * h.toNat + l.toNat) = addrOf h l := by
    rw [← addrOf_toNat, BitVec.ofNat_toNat, BitVec.setWidth_eq]
  simp only [resolveLabel, hn, hindex, hiByte_addrOf, loByte_addrOf]

theorem resolveT_labelRef {labels : Labels} {n : Ident} {h l : Byte} (o : Opcode) (c : Byte → Byte → Instr)
    (hn : List.lookup n labels = some (256 * h.toNat + l.toNat)) : resolveT labels o c [.labelRef n] = .ok (c h l) := by
  simp only [resolveT, asTarget, resolveLabel_of_lookup hn]
  rfl

/-! ### JUMP and JZ -/

/-- All that a write of the pc leaves unchanged. -/
theorem frame_setPc (s : State) (a : Word16) :
    (setPc a s).zf = s.zf ∧ SameRegsExcept [] s (setPc a s) ∧ SameStack s (setPc a s) ∧ SameMem s (setPc a s) ∧
    SameProg s (setPc a s) ∧ SameHistory s (setPc a s) ∧ SameRun s (setPc a s) :=
  ⟨rfl, fun r _ => getReg_setPc s a r, ⟨rfl, fun i _ => slot_setPc s a i⟩, readMem_setPc s a, rfl, rfl, ⟨rfl, rfl⟩⟩

theorem exec_jump (h l : Byte) (s : State) : exec (.jump h l) s = .next (setPc (addrOf h l) s) := rfl

theorem exec_jz_of_zf (h l : Byte) {s : State} (hz : s.zf = true) :
    exec (.jz h l) s = .next (setPc (addrOf h l) s) := by
  simp only [exec, execJz, jumpTarget, hz, if_true]

theorem exec_jz_of_not_zf (h l : Byte) {s : State} (hz : s.zf = false) : exec (.jz h l) s = .next s := by
  simp [exec, execJz, hz]

/-- Settles O22: JUMP is the write of the pc with the number of its two bytes. -/
theorem jumpSetsPc : Obligations.JumpSetsPc := by
  unfold Obligations.JumpSetsPc
  intro h l
  exact ⟨rfl, names_mnemonic .jump, fun _ _ hn => resolveT_labelRef .jump .jump hn,
    fun s => ⟨_, exec_jump h l s, addrOf_toNat h l, rfl, frame_setPc s _⟩⟩

/-- Settles O23: taken, JZ is the write of the pc; not taken, it answers the state it was given. -/
theorem jzSetsPcOnlyWhenZero : Obligations.JzSetsPcOnlyWhenZero := by
  unfold Obligations.JzSetsPcOnlyWhenZero
  intro h l
  refine ⟨rfl, names_mnemonic .jz, fun _ _ hn => resolveT_labelRef .jz .jz hn, fun s => ?_⟩
  cases hz : s.zf with
  | true =>
    exact ⟨_, exec_jz_of_zf h l hz, fun _ => ⟨addrOf_toNat h l, rfl⟩, nofun, hz ▸ frame_setPc s _⟩
  | false =>
    exact ⟨s, exec_jz_of_not_zf h l hz, nofun, fun _ => ⟨rfl, rfl⟩, hz, fun _ _ => rfl, ⟨rfl, fun _ _ => rfl⟩,
      fun _ => rfl, rfl, rfl, ⟨rfl, rfl⟩⟩

/-! ### CALL -/

/-- A 16-bit number is that of its high and low byte (R9). -/
theorem hiByte_loByte_toNat (v : Word16) : 256 * (hiByte v).toNat + (loByte v).toNat = v.toNat := by
  rw [← addrOf_toNat, addrOf_hiByte_loByte]

/-- All that the two pushes of CALL and the write of the pc leave unchanged. -/
theorem PushedReturn.frame_setPc {ra : Word16} {s t : State} (h : PushedReturn ra s t) (a : Word16) :
    (setPc a t).zf = s.zf ∧ SameRegsExcept [] s (setPc a t) ∧
    SameSlotsExcept [s.sp.val, s.sp.val + 1] s (setPc a t) ∧ SameMem s (setPc a t) ∧ SameProg s (setPc a t) ∧
    SameHistory s (setPc a t) ∧ SameRun s (setPc a t) := by
  have hslots : SameSlotsExcept [s.sp.val, s.sp.val + 1] s t := fun i hi => by
    simp only [List.mem_cons, List.not_mem_nil, or_false, not_or] at hi
    obtain ⟨hlow, hhigh⟩ := hi
    exact h.others i hlow hhigh
  rw [h.rest] at hslots ⊢
  exact ⟨rfl, fun _ _ => rfl, hslots, fun _ => rfl, rfl, rfl, ⟨rfl, rfl⟩⟩

theorem exec_call_of_room (h l : Byte) {s : State} (hroom : s.sp.val < 254) :
    ∃ t, exec (.call h l) s = .next (setPc (addrOf h l) t) ∧ PushedReturn (s.pc + 1) s t := by
  obtain ⟨t, ht⟩ := pushReturnAddress_of_room (s.pc + 1) hroom
  exact ⟨t, by simp only [exec, execCall, jumpTarget, ht], pushReturnAddress_some ht⟩

theorem exec_call_full (h l : Byte) {s : State} (hfull : 254 ≤ s.sp.val) :
    exec (.call h l) s = .next (raiseFault .stackOverflow s) := by
  simp only [exec, execCall, pushReturnAddress_full _ hfull]

/-- Below the last index the return address does not wrap. -/
theorem succ_pc_toNat {pc : Word16} (h : pc.toNat < 65535) : (pc + 1).toNat = pc.toNat + 1 :=
  BitVec.toNat_add_of_lt (Nat.add_lt_add_right h 1)

/-- Settles O24: with two free slots CALL is the two pushes and the write of the pc, otherwise it is the fault. -/
theorem callPushesReturnAddressOrOverflows : Obligations.CallPushesReturnAddressOrOverflows := by
  unfold Obligations.CallPushesReturnAddressOrOverflows
  intro h l
  refine ⟨rfl, names_mnemonic .call, fun _ _ hn => resolveT_labelRef .call .call hn,
    fun s => ⟨fun hroom hpc => ?_, fun hfull => ?_⟩⟩
  · obtain ⟨t, ht, hp⟩ := exec_call_of_room h l hroom
    have hbytes : 256 * (hiByte (s.pc + 1)).toNat + (loByte (s.pc + 1)).toNat = s.pc.toNat + 1 := by
      rw [hiByte_loByte_toNat, succ_pc_toNat hpc]
    exact ⟨_, _, _, ht, hp.low, hp.high, hbytes, hp.sp, addrOf_toNat h l, rfl, hp.frame_setPc _⟩
  · exact ⟨_, exec_call_full h l hfull, rfl, onlyRunChanged_raiseFault _ s⟩

/-! ### RETURN -/

/-- All that the two pops of RETURN and the write of the pc leave unchanged; no slot is cleared (R36). -/
theorem PoppedReturn.frame_setPc {ra : Word16} {s t : State} (h : PoppedReturn ra s t) (a : Word16) :
    (setPc a t).zf = s.zf ∧ SameRegsExcept [] s (setPc a t) ∧ SameSlotsExcept [] s (setPc a t) ∧
    SameMem s (setPc a t) ∧ SameProg s (setPc a t) ∧ SameHistory s (setPc a t) ∧ SameRun s (setPc a t) := by
  rw [h.rest]
  exact ⟨rfl, fun _ _ => rfl, fun _ _ => rfl, fun _ => rfl, rfl, rfl, ⟨rfl, rfl⟩⟩

theorem exec_ret_of_held {s : State} (h : 2 ≤ s.sp.val) :
    ∃ ra t, exec .ret s = .next (setPc ra t) ∧ PoppedReturn ra s t := by
  obtain ⟨ra, t, ht⟩ := popReturnAddress_of_held h
  exact ⟨ra, t, by simp only [exec, execRet, ht], popReturnAddress_some ht⟩

theorem exec_ret_short {s : State} (h : s.sp.val ≤ 1) : exec .ret s = .next (raiseFault .stackUnderflow s) := by
  simp only [exec, execRet, popReturnAddress_short h]

/-- Settles O25: with two bytes held RETURN is the two pops and the write of the pc, otherwise it is the fault. -/
theorem returnPopsTargetOrUnderflows : Obligations.ReturnPopsTargetOrUnderflows := by
  unfold Obligations.ReturnPopsTargetOrUnderflows
  have htext : AssemblesTo (mnemonic .ret) [] .ret := assemblesTo_mnemonic rfl rfl
  refine ⟨rfl, htext, fun s => ⟨fun hheld => ?_, fun hshort => ?_⟩⟩
  · obtain ⟨ra, t, ht, hp⟩ := exec_ret_of_held hheld
    exact ⟨_, _, _, ht, hp.high, hp.low, (hiByte_loByte_toNat ra).symm, hp.sp, rfl, hp.frame_setPc _⟩
  · exact ⟨_, exec_ret_short hshort, rfl, onlyRunChanged_raiseFault _ s⟩

/-! ### CALL, then RETURN -/

/-- Two pops from the depth and the two slots that CALL's pushes left answer the pushed address and move SP back. -/
theorem PushedReturn.popped_eq {ra rb : Word16} {s t u v : State} (hpush : PushedReturn ra s t) (hsp : u.sp = t.sp)
    (hslots : ∀ i, i = s.sp.val ∨ i = s.sp.val + 1 → slot u i = slot t i) (hpop : PoppedReturn rb u v) :
    rb = ra ∧ v.sp = s.sp := by
  have hdepth : u.sp.val = s.sp.val + 2 := by rw [hsp, hpush.sp]
  have htop : u.sp.val - 1 = s.sp.val + 1 := by rw [hdepth]; rfl
  have hbelow : u.sp.val - 2 = s.sp.val := by rw [hdepth, Nat.add_sub_cancel]
  have hhi : hiByte rb = hiByte ra :=
    Option.some.inj (hpop.high.symm.trans (htop ▸ (hslots _ (.inr rfl)).trans hpush.high))
  have hlo : loByte rb = loByte ra :=
    Option.some.inj (hpop.low.symm.trans (hbelow ▸ (hslots _ (.inl rfl)).trans hpush.low))
  refine ⟨?_, Fin.ext (hpop.sp.trans hbelow)⟩
  rw [← addrOf_hiByte_loByte rb, hhi, hlo, addrOf_hiByte_loByte]

/-- Settles O26: RETURN's two pops answer the address that CALL pushed (`PushedReturn.popped_eq`). -/
theorem returnResumesAfterCall : Obligations.ReturnResumesAfterCall := by
  unfold Obligations.ReturnResumesAfterCall
  intro h l s hroom
  obtain ⟨t, ht, hpush⟩ := exec_call_of_room h l hroom
  refine ⟨_, ht, fun u hsp hslots => ?_⟩
  have hheld : 2 ≤ u.sp.val := by
    rw [hsp, setPc_sp, hpush.sp]
    exact Nat.le_add_left 2 _
  obtain ⟨ra, v, hv, hpop⟩ := exec_ret_of_held hheld
  obtain ⟨rfl, hback⟩ := hpush.popped_eq hsp hslots hpop
  exact ⟨_, hv, rfl, hback⟩

end Sys2Proof.Machine
end

section
/-! PUTMEM, RENDER and WAIT (R300 to R302): three immediates in a text, what a write to memory reads back as, and what a write
to memory and a port event leave unchanged. -/

namespace Sys2Proof.Machine

@[simp] theorem resolveIII_numText (o : Opcode) (c : Byte → Byte → Byte → Instr) (h l v : Byte) :
    resolveIII o c [numText h, numText l, numText v] = .ok (c h l v) := by
  simp only [resolveIII, asImmediate_numText]
  rfl

/-! ### PUTMEM -/

/-- R63: a written byte reads back, in a memory in canonical form. -/
theorem readMem_memWrite_same {s : State} (hs : s.mem.wf) (a : Word16) (v : Byte) : readMem (memWrite a v s) a = v := by
  rw [readMem, memWrite_mem, Memory.read_write s.mem hs.1, if_pos rfl]

/-- All but memory that a write to memory leaves unchanged. -/
theorem frame_memWrite (s : State) (a : Word16) (v : Byte) :
    (memWrite a v s).zf = s.zf ∧ SameRegsExcept [] s (memWrite a v s) ∧ SameStack s (memWrite a v s) ∧
    SameProg s (memWrite a v s) ∧ SameHistory s (memWrite a v s) ∧ SameRun s (memWrite a v s) ∧
    SamePc s (memWrite a v s) :=
  ⟨rfl, fun r _ => getReg_memWrite s a v r, ⟨rfl, fun i _ => slot_memWrite s a v i⟩, rfl, rfl, ⟨rfl, rfl⟩, ⟨rfl, rfl⟩⟩

theorem exec_putmem (h l v : Byte) (s : State) : exec (.putmem h l v) s = .next (memWrite (addrOf h l) v s) := rfl

/-- Settles O28: PUTMEM is the write to the address of its two bytes, and an address with another number is another one. -/
theorem putmemWritesOneByte : Obligations.PutmemWritesOneByte := by
  unfold Obligations.PutmemWritesOneByte
  intro h l v
  have htext : AssemblesTo (mnemonic .putmem) [numText h, numText l, numText v] (.putmem h l v) :=
    assemblesTo_mnemonic rfl (resolveIII_numText .putmem .putmem h l v)
  refine ⟨rfl, htext, fun s => ⟨_, exec_putmem h l v s, fun hs a ha => ?_, fun a ha => ?_, frame_memWrite s _ v⟩⟩
  · obtain rfl : a = addrOf h l := BitVec.eq_of_toNat_eq (ha.trans (addrOf_toNat h l).symm)
    exact readMem_memWrite_same hs _ v
  · exact readMem_memWrite_other s v fun hal => ha (hal ▸ addrOf_toNat h l)

/-! ### RENDER and WAIT -/

/-- All but the history that a port event leaves unchanged. -/
theorem frame_emit (s : State) (e : Event) :
    (emit e s).zf = s.zf ∧ SameRegsExcept [] s (emit e s) ∧ SameStack s (emit e s) ∧ SameMem s (emit e s) ∧
    SameProg s (emit e s) ∧ SameRun s (emit e s) ∧ SamePc s (emit e s) :=
  ⟨rfl, fun r _ => getReg_emit s e r, ⟨rfl, fun i _ => slot_emit s e i⟩, readMem_emit s e, rfl, ⟨rfl, rfl⟩, ⟨rfl, rfl⟩⟩

theorem exec_render (s : State) : exec .render s = .next (emit (.render (framebuffer s)) s) := rfl

theorem exec_wait (v : Byte) (s : State) : exec (.wait v) s = .next (emit (.wait v) s) := rfl

/-- R66: the framebuffer's addresses are below the top of memory, so their sums do not wrap. -/
theorem framebufferAddress_toNat {j : Nat} (hj : j < 3840) : (0x8000 + BitVec.ofNat 16 j : Word16).toNat = 0x8000 + j := by
  rw [BitVec.toNat_add, BitVec.toNat_ofNat]
  change (32768 + j % 65536) % 65536 = 32768 + j
  omega

/-- Settles O29: RENDER is the event with the framebuffer, whose byte `j` is what memory holds at 0x8000 + j. -/
theorem renderEmitsFramebuffer : Obligations.RenderEmitsFramebuffer := by
  unfold Obligations.RenderEmitsFramebuffer
  have htext : AssemblesTo (mnemonic .render) [] .render := assemblesTo_mnemonic rfl rfl
  exact ⟨rfl, htext, fun s => ⟨_, framebuffer s, exec_render s, emit_history s _, memRead_length s _ _,
    fun j hj => framebuffer_getElem? s hj (framebufferAddress_toNat hj), frame_emit s _⟩⟩

/-- Settles O30: WAIT is the event with its immediate. -/
theorem waitEmitsSeconds : Obligations.WaitEmitsSeconds := by
  unfold Obligations.WaitEmitsSeconds
  intro v
  have htext : AssemblesTo (mnemonic .wait) [numText v] (.wait v) :=
    assemblesTo_mnemonic rfl (resolveI_numText .wait .wait v)
  exact ⟨rfl, htext, fun s => ⟨_, exec_wait v s, emit_history s _, frame_emit s _⟩⟩

end Sys2Proof.Machine
end

section
/-! EXIT, NOP and the reserved no-op (R320 to R322): what their steps leave, and that a program reaches the core only
through the test that RESERVED_NOP_TAGS lets its instructions exist (R109, R500). -/

namespace Sys2Proof.Machine

/-! ### Their steps in a run -/

/-- R31, R32: after an instruction that left the run going and the pc alone, the pc moves on and CONT decides the halt. -/
theorem afterInstr_of_running {t : State} (hrun : t.run = .running) (hmset : t.mset = false) :
    afterInstr t =
      { t with pc := t.pc + 1, run := if t.cont then .running else .halted (getReg t .ret) } := by
  rw [afterInstr_of_not_faulted (by simp [hrun]), loopTest_endOfStep]
  simp [hrun, hmset]

theorem exec_exit (s : State) : exec .exit s = .next { s with cont := false } := rfl

theorem exec_nop (s : State) : exec .nop s = .next s := rfl

theorem exec_reserved (tag : Byte) (ops : List Byte) (s : State) : exec (.reserved tag ops) s = .next s := rfl

/-- R320, R410: in a run EXIT's step is the halt with the byte in ReturnValue. -/
theorem step_exit {s : State} (hs : StateInv s) (hf : Fetches s .exit) :
    step s = .next { s with cont := false, pc := s.pc + 1, run := .halted (getReg s .ret) } := by
  have hend := afterInstr_of_running (t := { s with cont := false }) hf.running hs.msetClear
  rw [hf.step_eq (exec_exit s), hend]
  rfl

/-- In a run the step of an instruction that answers the state it is given only moves the pc on: CONT is set in a run. -/
theorem Fetches.step_of_exec_self {s : State} {i : Instr} (hs : StateInv s) (hf : Fetches s i) (hi : exec i s = .next s) :
    step s = .next { s with pc := s.pc + 1 } := by
  rw [hf.step_eq hi, afterInstr_of_running hf.running hs.msetClear, if_pos (hs.runningHasCont hf.running), ← hf.running]

/-- Settles O32: EXIT is the write of CONT, and its step is `step_exit`. -/
theorem exitClearsContAndHalts : Obligations.ExitClearsContAndHalts := by
  unfold Obligations.ExitClearsContAndHalts
  have htext : AssemblesTo (mnemonic .exit) [] .exit := assemblesTo_mnemonic rfl rfl
  refine ⟨rfl, htext, fun s => ⟨_, exec_exit s, rfl, rfl, rfl, fun _ _ => rfl, ⟨rfl, fun _ _ => rfl⟩, fun _ => rfl, rfl, rfl,
    ⟨rfl, rfl⟩, fun hs hf => ?_⟩⟩
  exact ⟨_, step_exit hs hf, rfl, hf.pc_succ_toNat hs, rfl, fun _ _ => rfl, ⟨rfl, fun _ _ => rfl⟩, fun _ => rfl, rfl, rfl⟩

/-- Settles O33: both answer the state they are given, so one lemma about such an instruction's step serves both. -/
theorem nopAndReservedOnlyAdvance : Obligations.NopAndReservedOnlyAdvance := by
  unfold Obligations.NopAndReservedOnlyAdvance
  have htext : AssemblesTo (mnemonic .nop) [] .nop := assemblesTo_mnemonic rfl rfl
  have hadvance : ∀ (s : State) (i : Instr), exec i s = .next s → StateInv s → Fetches s i →
      ∃ u, step s = .next u ∧ u.pc.toNat = s.pc.toNat + 1 ∧ u = { s with pc := u.pc } := fun s i hi hs hf =>
    ⟨_, hf.step_of_exec_self hs hi, hf.pc_succ_toNat hs, rfl⟩
  refine ⟨rfl, htext, fun s tag ops => ⟨exec_nop s, exec_reserved tag ops s, fun hs hf => ?_⟩⟩
  obtain hf | hf := hf
  · exact hadvance s _ (exec_nop s) hs hf
  · exact hadvance s _ (exec_reserved tag ops s) hs hf

/-! ### What the host's operations accept (R500, R109, R322) -/

theorem asHostError_eq_ok {x : Except LoadRefusal (List Instr)} {p : List Instr} : asHostError x = .ok p ↔ x = .ok p := by
  cases x <;> simp [asHostError]

/-- Whatever is made of an accepted program is made of it exactly when it is well-formed. -/
theorem acceptProgram_bind_eq_ok {rt : ReservedTags} {p : List Instr} {f : List Instr → State} {t : State} :
    (acceptProgram rt p >>= fun q => pure (f q)) = .ok t ↔ Program.wf rt p = true ∧ t = f p := by
  constructor
  · intro h
    obtain ⟨q, hq, ht⟩ := except_bind_eq_ok.mp h
    obtain ⟨rfl, hwf⟩ := acceptProgram_eq_ok.mp hq
    exact ⟨hwf, (Except.ok.inj ht).symm⟩
  · rintro ⟨hwf, rfl⟩
    exact except_bind_eq_ok.mpr ⟨p, acceptProgram_eq_ok.mpr ⟨rfl, hwf⟩, rfl⟩

theorem loadProgram_eq_ok {rt : ReservedTags} {p : List Instr} {s t : State} :
    loadProgram rt p s = .ok t ↔ Program.wf rt p = true ∧ t = { s with prog := some p } :=
  acceptProgram_bind_eq_ok

theorem loadImage_eq_ok {rt : ReservedTags} {b : List Byte} {s t : State} :
    loadImage rt b s = .ok t ↔ ∃ p, decodeImage rt b = .ok p ∧ t = { s with prog := some p } := by
  simp only [loadImage, except_bind_eq_ok, asHostError_eq_ok, pure, Except.pure, Except.ok.injEq, eq_comm (b := t)]

theorem hostNew_eq_ok {rt : ReservedTags} {zfInit : Bool} {p : List Instr} {t : State} :
    hostNew rt zfInit (some p) = .ok t ↔ Program.wf rt p = true ∧ t = State.fresh zfInit (some p) :=
  acceptProgram_bind_eq_ok (f := fun q => State.fresh zfInit (some q))

theorem beginRun_prog {s t : State} (h : beginRun s = .ok t) : t.prog = s.prog := by
  unfold beginRun at h
  split at h
  · cases h
  · cases h
    rfl

section
variable (rt : ReservedTags) {s : State}

theorem hostStep_running (op : HostOp) (h : s.run = .running) : hostStep rt op s = .error .runInProgress := if_pos h

theorem hostStep_loadProgram (p : List Instr) (h : s.run ≠ .running) :
    hostStep rt (.loadProgram p) s = loadProgram rt p s := if_neg h

theorem hostStep_loadImage (b : List Byte) (h : s.run ≠ .running) :
    hostStep rt (.loadImage b) s = loadImage rt b s := if_neg h

theorem hostStep_unloadProgram (h : s.run ≠ .running) : hostStep rt .unloadProgram s = .ok (unloadProgram s) := if_neg h

theorem hostStep_execute (h : s.run ≠ .running) : hostStep rt .execute s = beginRun s := if_neg h

end

/-! ### The program of a reachable state -/

/-- The loaded program, if there is one, is well-formed for the map. -/
def HasWfProgram (rt : ReservedTags) (s : State) : Prop := ∀ p, s.prog = some p → Program.wf rt p = true

theorem HasWfProgram.of_prog_eq {rt : ReservedTags} {s t : State} (hs : HasWfProgram rt s) (h : t.prog = s.prog) :
    HasWfProgram rt t := fun p hp => hs p (h.symm.trans hp)

theorem HasWfProgram.of_prog_some {rt : ReservedTags} {p : List Instr} {t : State} (h : t.prog = some p)
    (hwf : Program.wf rt p = true) : HasWfProgram rt t := fun q hq => by
  cases h.symm.trans hq
  exact hwf

theorem hostNew_hasWfProgram {rt : ReservedTags} {zfInit : Bool} {p : Option (List Instr)} {t : State}
    (h : hostNew rt zfInit p = .ok t) : HasWfProgram rt t := by
  cases p with
  | none =>
    cases h
    exact fun _ hp => nomatch hp
  | some p =>
    obtain ⟨hwf, rfl⟩ := hostNew_eq_ok.mp h
    exact .of_prog_some rfl hwf

/-- A program comes to a state only by a load, of instructions that were tested or of an image that the decoder read. -/
theorem hostStep_hasWfProgram {rt : ReservedTags} {op : HostOp} {s t : State} (hs : HasWfProgram rt s)
    (h : hostStep rt op s = .ok t) : HasWfProgram rt t := by
  by_cases hrun : s.run = .running
  · cases (hostStep_running rt op hrun).symm.trans h
  cases op with
  | loadProgram p =>
    rw [hostStep_loadProgram rt p hrun] at h
    obtain ⟨hwf, rfl⟩ := loadProgram_eq_ok.mp h
    exact .of_prog_some rfl hwf
  | loadImage b =>
    rw [hostStep_loadImage rt b hrun] at h
    obtain ⟨p, hp, rfl⟩ := loadImage_eq_ok.mp h
    exact .of_prog_some rfl (decodeImage_ok hp).2
  | unloadProgram =>
    cases (hostStep_unloadProgram rt hrun).symm.trans h
    exact fun _ hp => nomatch hp
  | execute =>
    rw [hostStep_execute rt hrun] at h
    exact hs.of_prog_eq (beginRun_prog h)

theorem Reachable.hasWfProgram {rt : ReservedTags} {s : State} (h : Reachable rt s) : HasWfProgram rt s := by
  induction h with
  | new zfInit p s hnew => exact hostNew_hasWfProgram hnew
  | host op s t _ hstep ih => exact hostStep_hasWfProgram ih hstep
  | step s t _ hstep ih => exact ih.of_prog_eq (noStepChangesTheProgram s t hstep)

/-- An instruction that a state with a well-formed program fetches is well-formed. -/
theorem HasWfProgram.instr_wf {rt : ReservedTags} {s : State} {i : Instr} (hs : HasWfProgram rt s) (hf : Fetches s i) :
    i.wf rt = true := by
  obtain ⟨-, p, hp, hfetch⟩ := hf
  have hwf := hs p hp
  simp only [Program.wf, Bool.and_eq_true, List.all_eq_true] at hwf
  exact hwf.1 i (List.mem_of_getElem? hfetch)

/-- R114, R322: a reserved no-op that exists has a tag of the map, so the map is not empty. -/
theorem reserved_in_map_of_wf {rt : ReservedTags} {tag : Byte} {ops : List Byte} (h : (Instr.reserved tag ops).wf rt = true) :
    Opcode.ofTag? tag = none ∧ rt.arity? tag = some ops.length ∧ rt ≠ [] := by
  simp only [Instr.wf, Bool.and_eq_true, decide_eq_true_eq] at h
  obtain ⟨htag, harity⟩ := h
  exact ⟨htag, harity, fun hrt => by simp [hrt, ReservedTags.arity?] at harity⟩

/-- Settles O60: acceptance is well-formedness, every reachable state keeps it (`Reachable.hasWfProgram`), and so the
instruction it fetches is well-formed. -/
theorem reservedNoOpsExistOnlyInTheMap : Obligations.ReservedNoOpsExistOnlyInTheMap := by
  unfold Obligations.ReservedNoOpsExistOnlyInTheMap
  intro rt
  refine ⟨fun p s t hrun => ?_, fun p zfInit t => hostNew_eq_ok, fun s hs => hs.hasWfProgram, fun s tag ops hs hf =>
    reserved_in_map_of_wf (hs.hasWfProgram.instr_wf hf)⟩
  rw [hostStep_loadProgram rt p hrun]
  exact loadProgram_eq_ok

end Sys2Proof.Machine
end

section
/-! Runtime faults and events of a step (R401, R402, R422), and `execute()` (R413, R503): its result, and that fuel beyond the
end of the run changes nothing. -/

namespace Sys2Proof.Machine

/-! ### Runtime faults -/

/-- The four rows of R401's table, by the kind they raise. -/
def ListedFault (s : State) (i : Instr) : RunFault → Prop
  | .stackOverflow => ((∃ r, i = .push r) ∧ s.sp.val = 255) ∨ ((∃ h l, i = .call h l) ∧ 254 ≤ s.sp.val)
  | .stackUnderflow => ((∃ r, i = .pop r) ∧ s.sp.val = 0) ∨ (i = .ret ∧ s.sp.val ≤ 1)

/-- R401: in a run, an effect ends faulted exactly in the rows of the table; a stack instruction that runs has the room or
the bytes it needs, and no other instruction is in the table. -/
theorem Effect.run_eq_faulted_iff {s t : State} {i : Instr} (h : Effect s i t) (hrun : s.run = .running) (k : RunFault) :
    t.run = .faulted k ↔ ListedFault s i k := by
  cases h with
  | push hp => cases k <;> simp [ListedFault, hrun, hp.room.ne]
  | pushFull r full => cases k <;> simp [ListedFault, full]
  | pop hp => cases k <;> simp [ListedFault, hrun, hp.held.ne']
  | popEmpty r empty => cases k <;> simp [ListedFault, empty]
  | call hp => cases k <;> simp [ListedFault, hrun, hp.room]
  | callFull a b full => cases k <;> simp [ListedFault, full]
  | ret hp => cases k <;> simp [ListedFault, hrun, Nat.lt_of_succ_le hp.held]
  | retShort short => cases k <;> simp [ListedFault, short]
  | _ => cases k <;> simp [ListedFault, hrun]

/-- R27, R32, R402: after an instruction the run state is kept, or the loop test halts a run that has not faulted. -/
theorem afterInstr_run_eq_or_halted (t : State) :
    (afterInstr t).run = t.run ∨
      (∀ k, t.run ≠ .faulted k) ∧ (afterInstr t).run = .halted (getReg t .ret) := by
  by_cases hfault : ∃ k, t.run = .faulted k
  · obtain ⟨k, hk⟩ := hfault
    exact .inl (by rw [afterInstr_of_faulted hk])
  · have hnot : ∀ k, t.run ≠ .faulted k := fun k hk => hfault ⟨k, hk⟩
    rw [afterInstr_of_not_faulted hnot, loopTest_endOfStep]
    cases t.cont with
    | true => exact .inl rfl
    | false => exact .inr ⟨hnot, rfl⟩

/-- The end of a step neither raises a fault nor takes one back. -/
theorem afterInstr_run_eq_faulted_iff {t : State} {k : RunFault} :
    (afterInstr t).run = .faulted k ↔ t.run = .faulted k := by
  obtain h | ⟨hnot, h⟩ := afterInstr_run_eq_or_halted t
  · rw [h]
  · simp [h, hnot k]

/-- Settles O38: the step of a fetched instruction faults as its effect does (`Effect.run_eq_faulted_iff`), and then the
whole effect is `raiseFault`. -/
theorem faultsExactlyInTheListedCases : Obligations.FaultsExactlyInTheListedCases := by
  unfold Obligations.FaultsExactlyInTheListedCases
  intro s i hf
  obtain ⟨u, hu⟩ := exec_next i s
  have he := exec_effect hu
  have hiff : ∀ k, (afterInstr u).run = .faulted k ↔ ListedFault s i k := fun k =>
    afterInstr_run_eq_faulted_iff.trans (he.run_eq_faulted_iff hf.running k)
  refine ⟨afterInstr u, hf.step_eq hu, hiff .stackOverflow, hiff .stackUnderflow, fun k hk => ?_⟩
  obtain rfl := he.eq_raiseFault hf.running (afterInstr_run_eq_faulted_iff.mp hk)
  rw [afterInstr_of_faulted (raiseFault_run s k)]
  exact onlyRunChanged_raiseFault k s

/-! ### Events -/

/-- R422: RENDER and WAIT add their event, and nothing else writes the history. -/
theorem Effect.history_eq_or_event {s t : State} {i : Instr} (h : Effect s i t) :
    t.history = s.history ∨ (∃ f, i = .render ∧ t.history = s.history ++ [.render f]) ∨
      ∃ v, i = .wait v ∧ t.history = s.history ++ [.wait v] := by
  cases h with
  | render => exact .inr (.inl ⟨_, rfl, rfl⟩)
  | wait v => exact .inr (.inr ⟨v, rfl, rfl⟩)
  | _ => exact .inl rfl

/-- Settles O45: the effect adds at most the event of its instruction, and neither the end of the step nor the implicit halt
adds one. -/
theorem onlyRenderAndWaitAddEvents : Obligations.OnlyRenderAndWaitAddEvents := by
  unfold Obligations.OnlyRenderAndWaitAddEvents
  intro s t hstep
  obtain ⟨rfl, -⟩ | ⟨i, u, hf, he, rfl⟩ := step_cases hstep
  · exact .inl rfl
  · rw [afterInstr_history]
    obtain h | ⟨f, rfl, h⟩ | ⟨v, rfl, h⟩ := he.history_eq_or_event
    · exact .inl h
    · exact .inr (.inl ⟨f, hf, h⟩)
    · exact .inr (.inr ⟨v, hf, h⟩)

/-! ### The loop of `execute()` (R503, R413) -/

/-- What every step keeps holds of the state a run leaves. -/
theorem runLoop_induction {P : State → Prop} (hstep : ∀ s t, P s → step s = .next t → P t) (fuel : Nat) {s : State}
    (hs : P s) : P (runLoop fuel s) := by
  induction fuel generalizing s with
  | zero => exact hs
  | succ fuel ih =>
    unfold runLoop
    split
    case h_1 t ht => exact ih (hstep s t hs ht)
    all_goals exact hs

/-- A run takes its fuel in parts. -/
theorem runLoop_add (n m : Nat) (s : State) : runLoop (n + m) s = runLoop m (runLoop n s) := by
  induction n generalizing s with
  | zero => rw [Nat.zero_add, runLoop]
  | succ n ih =>
    rw [Nat.add_right_comm]
    cases hstep : step s with
    | next t => simp only [runLoop, hstep, ih]
    | fault r => cases m <;> simp only [runLoop, hstep]
    | refused r => cases m <;> simp only [runLoop, hstep]

/-- Outside a run the loop does nothing. -/
theorem runLoop_of_not_running (fuel : Nat) {s : State} (h : s.run ≠ .running) : runLoop fuel s = s := by
  cases fuel with
  | zero => rfl
  | succ fuel => simp only [runLoop, (noStepOutsideARun.1 s).mp h]

/-- R29: no step makes an instance Ready. -/
theorem step_run_ne_ready {s t : State} (h : step s = .next t) : t.run ≠ .ready := by
  obtain ⟨rfl, -⟩ | ⟨i, u, hf, he, rfl⟩ := step_cases h
  · simp
  · have hu : u.run ≠ .ready := by
      obtain hr | ⟨k, rfl, -⟩ := he.run_eq_or_fault
      · simp [hr, hf.running]
      · simp
    obtain hr | ⟨-, hr⟩ := afterInstr_run_eq_or_halted u
    · rwa [hr]
    · simp [hr]

/-! ### The result of `execute()` -/

theorem runResult_eq_exited {s : State} {c : Byte} : runResult s = .exited c ↔ s.run = .halted c := by
  unfold runResult
  split <;> simp [*]

theorem runResult_eq_faulted {s : State} {k : RunFault} {pc : Word16} :
    runResult s = .faulted k pc ↔ s.run = .faulted k ∧ s.pc = pc := by
  unfold runResult
  split <;> simp [*]

theorem runResult_eq_stillRunning {s : State} : runResult s = .stillRunning ↔ s.run = .ready ∨ s.run = .running := by
  unfold runResult
  split <;> simp [*]

theorem beginRun_eq_ok {s t : State} : beginRun s = .ok t ↔ s.prog.isSome ∧ t = runReset s := by
  unfold beginRun
  split <;> simp [*, eq_comm]

/-- `execute()` is, between runs and with a program, the reset and the loop. -/
theorem execute_eq_ok {fuel : Nat} {s t : State} {r : RunResult} :
    execute fuel s = .ok (r, t) ↔
      s.run ≠ .running ∧ s.prog.isSome ∧ t = runLoop fuel (runReset s) ∧ r = runResult t := by
  unfold execute
  split
  case isTrue hrun => simp [hrun]
  case isFalse hrun =>
    simp only [except_bind_eq_ok, beginRun_eq_ok]
    constructor
    · rintro ⟨_, ⟨hprog, rfl⟩, h⟩
      cases h
      exact ⟨hrun, hprog, rfl, rfl⟩
    · rintro ⟨-, hprog, rfl, rfl⟩
      exact ⟨_, ⟨hprog, rfl⟩, rfl⟩

theorem stateInv_runReset {s : State} (h : StateInv s) (hprog : s.prog.isSome) : StateInv (runReset s) where
  memory := h.memory
  programLength := h.programLength
  msetClear := rfl
  runningHasProgram _ := hprog
  runningHasCont _ := rfl
  exitCode _ hr := by cases hr
  overflowDepth hr := by cases hr
  underflowDepth hr := by cases hr
  frameLength _ hf := by cases hf

/-- Settles O51: the loop keeps the invariant, whose exit code is the byte in ReturnValue, and never makes the instance
Ready. -/
theorem executeReportsHowTheRunEnded : Obligations.ExecuteReportsHowTheRunEnded := by
  unfold Obligations.ExecuteReportsHowTheRunEnded
  intro fuel s t r hs hexec
  obtain ⟨-, hprog, rfl, rfl⟩ := execute_eq_ok.mp hexec
  have hinv : StateInv (runLoop fuel (runReset s)) :=
    runLoop_induction stepKeepsInvariant fuel (stateInv_runReset hs hprog)
  have hready : (runLoop fuel (runReset s)).run ≠ .ready :=
    runLoop_induction (P := fun u => u.run ≠ .ready) (fun _ _ _ => step_run_ne_ready) fuel (by simp [runReset])
  refine ⟨hinv, fun c hc => ?_, fun k pc => runResult_eq_faulted.mp, fun hstill => ?_⟩
  · have hhalt := runResult_eq_exited.mp hc
    exact ⟨hhalt, hinv.exitCode c hhalt⟩
  · exact (runResult_eq_stillRunning.mp hstill).resolve_left hready

/-- Settles O52: the greater fuel runs on from where the first run ended (`runLoop_add`), and there is no step from there. -/
theorem moreFuelGivesTheSameEnd : Obligations.MoreFuelGivesTheSameEnd := by
  unfold Obligations.MoreFuelGivesTheSameEnd
  intro n m s t r hexec hend hle
  obtain ⟨hrun, hprog, ht, hr⟩ := execute_eq_ok.mp hexec
  have hstop : t.run ≠ .running := fun h => hend (hr.trans (runResult_eq_stillRunning.mpr (.inr h)))
  refine execute_eq_ok.mpr ⟨hrun, hprog, ?_, hr⟩
  calc t = runLoop (m - n) t := (runLoop_of_not_running _ hstop).symm
    _ = runLoop m (runReset s) := by rw [ht, ← runLoop_add, Nat.add_sub_cancel' hle]

end Sys2Proof.Machine
end

section
/-! The host's operations between runs (R500 to R505): what each of them answers and refuses, and that with the steps they
keep the invariant. -/

namespace Sys2Proof.Machine

/-! ### What an operation leaves -/

/-- R500, R501, R503: an operation that is not refused happens between runs, and changes only the program, to none or to a
well-formed one, or is the reset of `execute()`. -/
theorem hostStep_cases {rt : ReservedTags} {op : HostOp} {s t : State} (h : hostStep rt op s = .ok t) :
    s.run ≠ .running ∧
      ((∃ q, (∀ p, q = some p → Program.wf rt p = true) ∧ t = { s with prog := q }) ∨ s.prog.isSome ∧ t = runReset s) := by
  by_cases hrun : s.run = .running
  · cases (hostStep_running rt op hrun).symm.trans h
  refine ⟨hrun, ?_⟩
  cases op with
  | loadProgram p =>
    rw [hostStep_loadProgram rt p hrun] at h
    obtain ⟨hwf, ht⟩ := loadProgram_eq_ok.mp h
    exact .inl ⟨some p, by rintro _ ⟨⟩; exact hwf, ht⟩
  | loadImage b =>
    rw [hostStep_loadImage rt b hrun] at h
    obtain ⟨p, hp, ht⟩ := loadImage_eq_ok.mp h
    exact .inl ⟨some p, by rintro _ ⟨⟩; exact (decodeImage_ok hp).2, ht⟩
  | unloadProgram =>
    rw [hostStep_unloadProgram rt hrun] at h
    exact .inl ⟨none, nofun, (Except.ok.inj h).symm⟩
  | execute =>
    rw [hostStep_execute rt hrun] at h
    exact .inr (beginRun_eq_ok.mp h)

/-! ### The invariant of every reachable state -/

theorem length_le_of_wf {rt : ReservedTags} {p : List Instr} (h : Program.wf rt p = true) :
    p.length ≤ Config.maxProgramLen := by
  simp only [Program.wf, Bool.and_eq_true, decide_eq_true_eq] at h
  exact h.2

/-- Between runs the invariant asks only the length bound of the program. -/
theorem stateInv_withProgram {s : State} {q : Option (List Instr)} (h : StateInv s) (hrun : s.run ≠ .running)
    (hq : ∀ p, q = some p → p.length ≤ Config.maxProgramLen) : StateInv { s with prog := q } where
  memory := h.memory
  programLength := hq
  msetClear := h.msetClear
  runningHasProgram hr := absurd hr hrun
  runningHasCont hr := absurd hr hrun
  exitCode := h.exitCode
  overflowDepth := h.overflowDepth
  underflowDepth := h.underflowDepth
  frameLength := h.frameLength

theorem stateInv_hostNew {rt : ReservedTags} {zfInit : Bool} {p : Option (List Instr)} {t : State}
    (h : hostNew rt zfInit p = .ok t) : StateInv t := by
  cases p with
  | none =>
    cases h
    exact stateInv_fresh zfInit nofun
  | some p =>
    obtain ⟨hwf, rfl⟩ := hostNew_eq_ok.mp h
    exact stateInv_fresh zfInit (by rintro _ ⟨⟩; exact length_le_of_wf hwf)

theorem stateInv_hostStep {rt : ReservedTags} {op : HostOp} {s t : State} (hs : StateInv s)
    (h : hostStep rt op s = .ok t) : StateInv t := by
  obtain ⟨hrun, ⟨q, hwf, rfl⟩ | ⟨hprog, rfl⟩⟩ := hostStep_cases h
  · exact stateInv_withProgram hs hrun fun p hp => length_le_of_wf (hwf p hp)
  · exact stateInv_runReset hs hprog

/-- Settles O11, by induction on how the state is reached: construction gives the invariant, the host's operations
(`stateInv_hostStep`) and the steps (`stepKeepsInvariant`) keep it. -/
theorem everyReachableStateMeetsInvariant : Obligations.EveryReachableStateMeetsInvariant := by
  unfold Obligations.EveryReachableStateMeetsInvariant
  intro rt s hs
  induction hs with
  | new zfInit p s hnew => exact stateInv_hostNew hnew
  | host op s t _ hop ih => exact stateInv_hostStep ih hop
  | step s t _ hstep ih => exact stepKeepsInvariant s t ih hstep

/-! ### What a load refuses (R121, R500) -/

theorem loadImage_eq_error {rt : ReservedTags} {b : List Byte} {s : State} {r : LoadRefusal} :
    loadImage rt b s = .error (.load r) ↔ decodeImage rt b = .error r := by
  unfold loadImage
  cases decodeImage rt b with
  | ok p => simp [asHostError, bind, Except.bind, pure, Except.pure]
  | error r' => simp [asHostError, bind, Except.bind]

/-- The length is checked first, so a program that is too long is refused for its length whatever it holds. -/
theorem loadProgram_too_long (rt : ReservedTags) {p : List Instr} (s : State) (h : Config.maxProgramLen < p.length) :
    loadProgram rt p s = .error (.load (.programTooLong p.length)) := by
  have hlen : checkLength p = .error (.programTooLong p.length) := if_pos h
  unfold loadProgram acceptProgram
  rw [hlen]
  rfl

/-- Settles O49: between runs a load is what `loadImage` or `loadProgram` answers. -/
theorem imageLoadsExactlyWhenItDecodes : Obligations.ImageLoadsExactlyWhenItDecodes := by
  unfold Obligations.ImageLoadsExactlyWhenItDecodes
  intro rt s hrun
  refine ⟨fun b t => ?_, fun b r => ?_, fun p hlen => ?_⟩
  · rw [hostStep_loadImage rt b hrun]
    exact loadImage_eq_ok
  · rw [hostStep_loadImage rt b hrun]
    exact loadImage_eq_error
  · rw [hostStep_loadProgram rt p hrun]
    exact loadProgram_too_long rt s hlen

/-- Settles O48. -/
theorem loadAndUnloadChangeOnlyTheProgram : Obligations.LoadAndUnloadChangeOnlyTheProgram := by
  unfold Obligations.LoadAndUnloadChangeOnlyTheProgram
  intro rt s hrun
  refine ⟨fun p hwf => ⟨_, ?_, rfl⟩, fun b p hp => ⟨_, ?_, rfl⟩, ⟨_, hostStep_unloadProgram rt hrun, rfl⟩⟩
  · rw [hostStep_loadProgram rt p hrun]
    exact loadProgram_eq_ok.mpr ⟨hwf, rfl⟩
  · rw [hostStep_loadImage rt b hrun]
    exact loadImage_eq_ok.mpr ⟨p, hp, rfl⟩

/-! ### The reset of `execute()` (R502, R503) -/

theorem beginRun_of_no_program {s : State} (h : s.prog = none) : beginRun s = .error .noProgram := by
  unfold beginRun
  rw [h]

theorem slot_runReset (s : State) {i : Nat} (h : i < 255) : slot (runReset s) i = some 0 := by
  simp [slot, runReset, h]

/-- Settles O50: with a program the answer is `runReset`. -/
theorem executeResetsAndKeeps : Obligations.ExecuteResetsAndKeeps := by
  unfold Obligations.ExecuteResetsAndKeeps
  intro rt s hrun
  rw [hostStep_execute rt hrun]
  refine ⟨beginRun_of_no_program, fun hprog => ?_⟩
  have hreset : beginRun s = .ok (runReset s) := beginRun_eq_ok.mpr ⟨Option.isSome_iff_ne_none.mpr hprog, rfl⟩
  exact ⟨runReset s, hreset, rfl, rfl, fun _ hi => slot_runReset s hi, rfl, rfl, rfl, rfl, fun _ _ => rfl, rfl,
    fun _ => rfl, rfl⟩

end Sys2Proof.Machine
end
